-- ==== Sys2Proof/Word.lean ====
section
/-! DEFINITION. The word types of the block (00_scope.md R8): a byte is 8 bits unsigned, `u32` is 32 bits unsigned. -/

namespace Sys2Proof

/-- A byte: an 8-bit unsigned value (00_scope.md R8). -/
abbrev Byte := BitVec 8

/-- A CAN identifier: a `u32`, carried whole both ways (30_encoding.md R45). -/
abbrev CanId := BitVec 32

end Sys2Proof
end

