-- ==== Sys2Proof/Config.lean ====
section
/-! DEFINITION. The constants the source fixes (00_scope.md R6, 10_state.md R16) and the parameters it leaves open
(00_scope.md R7). None of them is state (10_state.md R21). -/

namespace Sys2Proof

/-- The packet delimiter (00_scope.md R6). -/
def START_BYTE : Byte := 0xAA

/-- The escape lead byte (00_scope.md R6). -/
def ESC_BYTE : Byte := 0xAB

/-- The value XORed onto an escaped byte (00_scope.md R6). -/
def ESC_XOR : Byte := 0x20

/-- Payload byte 0 (00_scope.md R6, R2). -/
def VERSION : Byte := 0x01

/-- The most data bytes in a frame (00_scope.md R6). -/
abbrev MAX_DATA : Nat := 15

/-- The payload bytes before the data (00_scope.md R6). -/
abbrev HDR_LEN : Nat := 7

/-- The shortest payload (00_scope.md R6). -/
abbrev MIN_PAYLOAD : Nat := 8

/-- The longest payload ENCODE builds (00_scope.md R7). -/
abbrev MAX_PAYLOAD : Nat := 23

/-- The shortest packet ENCODE emits (41_codec.md R82). -/
abbrev MIN_PACKET : Nat := 9

/-- The longest packet ENCODE emits (00_scope.md R7, 41_codec.md R82). -/
abbrev MAX_PACKET : Nat := 43

/-- The smallest legal `RSM_CAP` (00_scope.md R7, D13). -/
abbrev MIN_CAP : Nat := 46

/-- Which payload byte DECODE compares to the sum: `at_dlc` only in this spec (00_scope.md R7, D8; log 10). -/
inductive CsumPos where
  /-- The checksum is payload byte `7 + dlc`. -/
  | atDlc
deriving DecidableEq, Repr

/-- The number each result kind has on a status output (60_exceptions.md R132, D14; log 20). -/
structure StatusCodes where
  /-- Success, and "nothing emitted" for FEED and FLUSH. -/
  ok : Nat
  malformedStart : Nat
  truncated : Nat
  versionMismatch : Nat
  unknownCommand : Nat
  checksumMismatch : Nat
  frameTooLarge : Nat
deriving DecidableEq, Repr

/-- The codes 0 to 6, fixed by this spec (60_exceptions.md R132, D14; log 20). -/
def StatusCodes.fixed : StatusCodes :=
  { ok := 0, malformedStart := 1, truncated := 2, versionMismatch := 3, unknownCommand := 4, checksumMismatch := 5,
    frameTooLarge := 6 }

/-- The parameters the source leaves open, each a field (00_scope.md R7). -/
structure Config where
  /-- `RSM_CAP`: the most bytes `RSM.buf` holds; `none` is unbounded (D13; log 9). -/
  rsmCap : Option Nat
  /-- `CSUM_POS` (D8; log 10). -/
  csumPos : CsumPos
  /-- The status codes (D14; log 20). -/
  status : StatusCodes
  /-- `MAX_PAYLOAD`, derived: a consequence of ENCODE's rule, which no operation consults (00_scope.md R7). -/
  maxPayload : Nat
  /-- `MAX_PACKET`, derived: a consequence of ENCODE's rule, which no operation consults (00_scope.md R7, 41_codec.md
  R82). -/
  maxPacket : Nat
deriving DecidableEq, Repr

/-- The legal range of `RSM_CAP`: at least 46, or unbounded (00_scope.md R7, 93_implementation_defined.md U9). -/
def legalCap (cap : Option Nat) : Bool :=
  match cap with
  | none => true
  | some n => decide (MIN_CAP ≤ n)

/-- The legal range of every parameter (00_scope.md R7): `RSM_CAP` ranges, the others have one legal value. -/
def Config.legal (c : Config) : Bool :=
  legalCap c.rsmCap && decide (c.csumPos = .atDlc) && decide (c.status = .fixed) &&
    decide (c.maxPayload = MAX_PAYLOAD) && decide (c.maxPacket = MAX_PACKET)

/-- The values this spec takes (00_scope.md R7). DESIGN CHOICE of the spec, D8, D13 and D14; logs 9, 10 and 20 (unsafe for
claims about raw candidates, invisible through DECODE, 42_reassembler.md R120). -/
def Config.taken : Config :=
  { rsmCap := some 64, csumPos := .atDlc, status := .fixed, maxPayload := MAX_PAYLOAD, maxPacket := MAX_PACKET }

end Sys2Proof
end

