-- ==== Sys2Proof/Machine/Flags.lean ====
section
/-! DEFINITION. The flags byte of a payload, the one flag computation of the block (30_encoding.md R46; 10_state.md R15
says there are no carry, zero, overflow or sign flags). -/

namespace Sys2Proof.Machine

/-- `flags = (data_length & 0x0F) | (0x80 if extended else 0)` (30_encoding.md R46). -/
def flagsByte (n : Nat) (extended : Bool) : Byte :=
  (BitVec.ofNat 8 n &&& 0x0F) ||| (if extended then 0x80 else 0x00)

/-- `dlc = flags & 0x0F`, the declared number of data bytes (30_encoding.md R46). -/
def flagsDlc (flags : Byte) : Nat := (flags &&& 0x0F).toNat

/-- `extended = (flags & 0x80) != 0` (30_encoding.md R46). -/
def flagsExtended (flags : Byte) : Bool := flags &&& 0x80 != 0x00

/-- Bits 6 to 4, which ENCODE writes 0 and DECODE does not look at (30_encoding.md R55). -/
def flagsUnnamed (flags : Byte) : Byte := flags &&& 0x70

end Sys2Proof.Machine
end

