-- ==== Sys2Proof/Syntax/Operand.lean ====
section
/-! DEFINITION. The operand types of the instructions: the closed command set and the two forms a command takes. -/

namespace Sys2Proof

/-- The closed set of eleven commands (30_encoding.md R47). -/
inductive Command where
  | canSend
  | heartbeat
  | ack
  | nack
  | deviceInfo
  | ping
  | configGet
  | configSet
  | reset
  | setFilter
  | clearFilter
deriving DecidableEq, Repr

/-- The two uses of a command row, "operand of ENCODE, result of DECODE" (spec/opcode_table.json; DEDUCED, log 5). -/
inductive CommandForm where
  /-- The TX agent encodes a frame with this command; the operands are ENCODE's other operands (41_codec.md R80). -/
  | send (canId : CanId) (extended : Bool) (data : List Byte)
  /-- A payload with this command arrives and is decoded; `rest` is every payload byte after version and command
  (30_encoding.md R41). -/
  | receive (rest : List Byte)
deriving DecidableEq, Repr

end Sys2Proof
end

