-- ==== Sys2Proof/Machine/Operands.lean ====
section
/-! DEFINITION. The fields of a payload and how they are assembled and read (30_encoding.md section 2, 20_memory.md R31). -/

namespace Sys2Proof

/-- `code(c)`, the byte of a command (30_encoding.md R47). -/
def Command.code : Command → Byte
  | .canSend => 0x01
  | .heartbeat => 0x02
  | .ack => 0x03
  | .nack => 0x04
  | .deviceInfo => 0x10
  | .ping => 0x20
  | .configGet => 0x30
  | .configSet => 0x31
  | .reset => 0x40
  | .setFilter => 0x41
  | .clearFilter => 0x42

/-- The closed set of eleven commands, in code order (30_encoding.md R47). -/
def allCommands : List Command :=
  [.canSend, .heartbeat, .ack, .nack, .deviceInfo, .ping, .configGet, .configSet, .reset, .setFilter, .clearFilter]

/-- `cmd_of(b)`, the partial inverse of `code`: "a fallible conversion from the wire byte" (30_encoding.md R44). -/
def cmdOf (b : Byte) : Option Command := allCommands.find? (fun c => c.code == b)

end Sys2Proof

namespace Sys2Proof.Machine

/-- `byte_k(v)`, `byte_0` the most significant (00_scope.md R8). -/
def byteK (v : CanId) (k : Nat) : Byte := (v >>> (8 * (3 - k))).setWidth 8

/-- `be32(b0, b1, b2, b3)`, most significant byte first (00_scope.md R8, 20_memory.md R26; PRESUMED by the spec, log 12). -/
def be32 (b0 b1 b2 b3 : Byte) : CanId :=
  BitVec.ofNat 32 (b0.toNat * 2 ^ 24 + b1.toNat * 2 ^ 16 + b2.toNat * 2 ^ 8 + b3.toNat)

/-- Payload byte `i`. Every use is guarded by a length check (41_codec.md R93), so the value past the end is never met. -/
def payloadAt (p : List Byte) (i : Nat) : Byte := p.getD i 0x00

/-- Field `version`, `p[0]` (30_encoding.md R43). -/
def versionField (p : List Byte) : Byte := payloadAt p 0

/-- Field `command`, `p[1]` (30_encoding.md R44). -/
def commandField (p : List Byte) : Byte := payloadAt p 1

/-- Field `can_id`, `p[2..5]`, not masked (30_encoding.md R45, D3; log 13). -/
def canIdField (p : List Byte) : CanId := be32 (payloadAt p 2) (payloadAt p 3) (payloadAt p 4) (payloadAt p 5)

/-- Field `flags`, `p[6]` (30_encoding.md R46). -/
def flagsField (p : List Byte) : Byte := payloadAt p 6

/-- Field `data`, the `dlc` bytes from `p[7]` (30_encoding.md R48, D31). -/
def dataField (p : List Byte) (dlc : Nat) : List Byte := (p.drop HDR_LEN).take dlc

/-- The index of the checksum byte, `7 + dlc` (30_encoding.md R49, D8; log 10). -/
def checksumIndex (pos : CsumPos) (dlc : Nat) : Nat :=
  match pos with
  | .atDlc => HDR_LEN + dlc

/-- The payload before its checksum: version, command, can_id, flags, data (30_encoding.md R41). -/
def header (code : Byte) (canId : CanId) (extended : Bool) (data : List Byte) : List Byte :=
  [VERSION, code, byteK canId 0, byteK canId 1, byteK canId 2, byteK canId 3, flagsByte data.length extended] ++ data

end Sys2Proof.Machine
end

