-- ==== Sys2Proof/Syntax/Request.lean ====
section
/-! DEFINITION. How an operation is presented to the block. The spec defines no ports (D1); the named ports and the
layout of their operand bytes are the model's own (DESIGN CHOICE, logs 1 and 3). -/

namespace Sys2Proof

/-- Where a request is presented. The first five carry the words of spec/opcode_table.json (formats "payload",
"payload-byte", "wire-byte"); the others are named after the operation they present (30_encoding.md R57). -/
inductive Port where
  /-- A payload before its checksum, to be sent (30_encoding.md R41). -/
  | txPayload
  /-- A payload as it arrived, after unescaping (30_encoding.md R41). -/
  | rxPayload
  /-- One byte at ESC's input (30_encoding.md R53). -/
  | payloadByte
  /-- One body byte at UNESC's input, with the byte after it when it is a lead (30_encoding.md R53). -/
  | bodyByte
  /-- One byte of the live stream at FEED's input (30_encoding.md R53). -/
  | streamByte
  | esc
  | escSeq
  | unesc
  | csum
  | encode
  | decode
  | feed
  | flush
  | rxByte
  | rxFlush
  | reset
deriving DecidableEq, Repr

/-- One operation the host presents: the context that presents it (20_memory.md R35), the port, the operand bytes. -/
structure Request where
  context : Nat
  port : Port
  bytes : List Byte
deriving DecidableEq, Repr

end Sys2Proof
end

