-- ==== Sys2Proof/Machine/State.lean ====
section
/-! DEFINITION. The state of the block, the results it returns and the reasons a step can stop. -/

namespace Sys2Proof.Machine

/-- The failure kinds, a closed set of six, returned as values (60_exceptions.md R131). -/
inductive Failure where
  /-- DECODE check (1) (60_exceptions.md R135). -/
  | malformedStart
  /-- DECODE checks (2) and (5) (60_exceptions.md R136). -/
  | truncated
  /-- DECODE check (3) (60_exceptions.md R137). -/
  | versionMismatch
  /-- DECODE check (4) (60_exceptions.md R138). -/
  | unknownCommand
  /-- DECODE check (6) (60_exceptions.md R139). -/
  | checksumMismatch
  /-- ENCODE, more than 15 data bytes (60_exceptions.md R134). -/
  | frameTooLarge
deriving DecidableEq, Repr

/-- What DECODE returns on success; no timestamp (41_codec.md R90, D25). -/
structure Frame where
  command : Command
  canId : CanId
  data : List Byte
  extended : Bool
  flags : Byte
deriving DecidableEq, Repr

/-- The result of ENCODE (30_encoding.md R58): one or the other, no packet beside a failure (D23). -/
inductive EncodeResult where
  | ok (packet : List Byte)
  | err (kind : Failure)
deriving DecidableEq, Repr

/-- The result of DECODE (30_encoding.md R58): one or the other, no frame field beside a failure (D19). -/
inductive DecodeResult where
  | ok (frame : Frame)
  | err (kind : Failure)
deriving DecidableEq, Repr

/-- The result of RXBYTE and RXFLUSH (30_encoding.md R58, 42_reassembler.md R121, R122). -/
inductive RxResult where
  | absent
  | frame (frame : Frame)
  | dropped (kind : Failure)
deriving DecidableEq, Repr

/-- One result of one operation, as the host takes it (30_encoding.md R58). -/
inductive Output where
  /-- The byte sequence ESC, ESCSEQ or UNESC returns. -/
  | bytes (s : List Byte)
  /-- The byte CSUM returns. -/
  | sum (b : Byte)
  /-- What ENCODE returns. -/
  | encoded (r : EncodeResult)
  /-- What DECODE returns. -/
  | decoded (r : DecodeResult)
  /-- What FEED or FLUSH returns: `None` or `Some(candidate)`. -/
  | candidate (c : Option (List Byte))
  /-- What RXBYTE or RXFLUSH returns. -/
  | received (r : RxResult)
deriving DecidableEq, Repr

/-- The stream reassembler's state, the whole architectural state of the block (10_state.md R10). -/
structure Rsm where
  /-- `RSM.buf`: the body bytes, still escaped, of the candidate being collected (10_state.md R11). -/
  buf : List Byte
  /-- `RSM.armed`: a `START_BYTE` has been fed since reset (10_state.md R12). -/
  armed : Bool
deriving DecidableEq, Repr

/-- The three states of the reassembler's state machine (42_reassembler.md R118). -/
inductive Phase where
  | hunt
  | sync
  | collect
deriving DecidableEq, Repr

/-- One event at the reassembler (42_reassembler.md R118). -/
inductive RsmEvent where
  | feed (b : Byte)
  | flush
  | reset
deriving DecidableEq, Repr

/-- No operation of the block traps, raises, aborts or hangs, and a model needs no fault outcome for any input
(60_exceptions.md R130): there is no fault, so no constructor (log 17; safe). -/
inductive Fault where
deriving DecidableEq, Repr

/-- The refusals, all of the interface (60_exceptions.md R130). Each is safe: the machine stops and nothing is proved of
what would follow. -/
inductive Refusal where
  /-- No meaning written yet; raised by no arm of this model. Safe. -/
  | notModelled (mnemonic : String)
  /-- A second context presents an RX operation (93_implementation_defined.md U1); raised by the fetch. Safe (log 8). -/
  | secondReader (owner context : Nat)
  /-- A command byte outside the eleven is presented for sending (93_implementation_defined.md U3); raised by the
  request decoder. Safe (log 7). -/
  | commandOutsideSet (b : Byte)
  /-- A payload with another version is presented for sending (30_encoding.md R43, R62); raised by the request decoder.
  Safe (log 7). -/
  | illegalVersion (b : Byte)
  /-- A payload with flags bits 6 to 4 set is presented for sending (30_encoding.md R46, R55); raised by the request
  decoder. Safe (log 7). -/
  | unnamedFlagBits (flags : Byte)
  /-- The operand bytes do not have the form of their port; raised by the request decoder. Safe (log 3). -/
  | malformedRequest (port : Port)
deriving DecidableEq, Repr

/-- The machine: the block's state and the model's own bookkeeping (10_state.md R10, R20). -/
structure State where
  /-- The architectural state of the block (10_state.md R10). -/
  rsm : Rsm
  /-- The model's own: the operations presented and not yet performed, oldest first (log 1). -/
  requests : List Request
  /-- The model's own: the results returned, oldest first (log 2). -/
  outputs : List Output
  /-- The model's own: the context that performs the RX operations, once one has (log 8). -/
  reader : Option Nat
  /-- The model's own: the configuration this machine is built with (00_scope.md R7). A parameter, not architectural state
  (10_state.md R21): no operation, RESET included, writes it (log 9). -/
  config : Config
deriving DecidableEq, Repr

/-- The state right after reset: HUNT (70_reset_and_hazards.md R155, 10_state.md R22; D12, log 11), nothing presented,
nothing returned, no reader yet (DESIGN CHOICE, logs 1, 2 and 8), in a machine built with the values this spec takes for its
parameters (00_scope.md R7; logs 9, 10 and 20). -/
def State.reset : State :=
  { rsm := { buf := [], armed := false }, requests := [], outputs := [], reader := none, config := Config.taken }

/-- The state right after reset of a machine built with another configuration (00_scope.md R7, log 9). -/
def State.resetWith (c : Config) : State := { State.reset with config := c }

end Sys2Proof.Machine
end

