-- ==== Sys2Proof/Syntax.lean ====
section
/-! DEFINITION. The instructions: one constructor for each row of spec/opcode_table.json, in the table's order. -/

namespace Sys2Proof

/-- The rows of spec/opcode_table.json: eleven commands (30_encoding.md R47), six byte classes (30_encoding.md R53),
eleven operations (30_encoding.md R57). -/
inductive Instr where
  /-- Command CAN_SEND, code 0x01 (41_codec.md R95). -/
  | canSend (form : CommandForm)
  /-- Command HEARTBEAT, code 0x02 (41_codec.md R96). -/
  | heartbeat (form : CommandForm)
  /-- Command ACK, code 0x03 (41_codec.md R97). -/
  | ack (form : CommandForm)
  /-- Command NACK, code 0x04 (41_codec.md R98). -/
  | nack (form : CommandForm)
  /-- Command DEVICE_INFO, code 0x10 (41_codec.md R99). -/
  | deviceInfo (form : CommandForm)
  /-- Command PING, code 0x20 (41_codec.md R100). -/
  | ping (form : CommandForm)
  /-- Command CONFIG_GET, code 0x30 (41_codec.md R101). -/
  | configGet (form : CommandForm)
  /-- Command CONFIG_SET, code 0x31 (41_codec.md R102). -/
  | configSet (form : CommandForm)
  /-- Command RESET, code 0x40: a value in a packet, not the RESET operation (41_codec.md R103). -/
  | resetCommand (form : CommandForm)
  /-- Command SET_FILTER, code 0x41 (41_codec.md R104). -/
  | setFilter (form : CommandForm)
  /-- Command CLEAR_FILTER, code 0x42 (41_codec.md R105). -/
  | clearFilter (form : CommandForm)
  /-- ESC.escape: a byte 0xAA or 0xAB at ESC's input (40_primitives.md R65). -/
  | escEscape (b : Byte)
  /-- ESC.pass: any other byte at ESC's input (40_primitives.md R65). -/
  | escPass (b : Byte)
  /-- UNESC.lead: a lead 0xAB and the byte after it, `none` when the lead is last (40_primitives.md R68; log 22). -/
  | unescLead (next : Option Byte)
  /-- UNESC.pass: a body byte that is neither a lead nor after one (40_primitives.md R68). -/
  | unescPass (b : Byte)
  /-- FEED.start: the delimiter at FEED's input (42_reassembler.md R111, R112). -/
  | feedStart
  /-- FEED.data: any other byte at FEED's input (42_reassembler.md R113, R114). -/
  | feedData (b : Byte)
  /-- Operation ESC (40_primitives.md R65). -/
  | esc (b : Byte)
  /-- Operation ESCSEQ (40_primitives.md R66). -/
  | escSeq (s : List Byte)
  /-- Operation UNESC (40_primitives.md R68). -/
  | unesc (s : List Byte)
  /-- Operation CSUM (40_primitives.md R71). -/
  | csum (s : List Byte)
  /-- Operation ENCODE (41_codec.md R80). -/
  | encode (command : Command) (canId : CanId) (extended : Bool) (data : List Byte)
  /-- Operation DECODE (41_codec.md R83). -/
  | decode (raw : List Byte)
  /-- Operation FEED (42_reassembler.md R110). -/
  | feed (b : Byte)
  /-- Operation FLUSH (42_reassembler.md R115). -/
  | flush
  /-- Operation RXBYTE (42_reassembler.md R121). -/
  | rxByte (b : Byte)
  /-- Operation RXFLUSH (42_reassembler.md R122). -/
  | rxFlush
  /-- Operation RESET (70_reset_and_hazards.md R156). -/
  | reset
deriving DecidableEq, Repr

end Sys2Proof
end

