-- ==== Sys2Proof/Machine/Ops.lean ====
section
/-! DEFINITION. The shared operations over the state. -/

namespace Sys2Proof.Machine

/-- Returns one result to the host, appended to the history (10_state.md R20, R21; log 2). Returning `Err(K)` through it is
all the "trap entry" the block has: nothing is saved and control goes nowhere (60_exceptions.md R141). -/
def State.emit (s : State) (o : Output) : State := { s with outputs := s.outputs ++ [o] }

/-- Writes the reassembler, the only write to storage the block has (00_scope.md R8). -/
def State.setRsm (s : State) (r : Rsm) : State := { s with rsm := r }

/-- The number of a failure kind on a status output (60_exceptions.md R132, D14; log 20). -/
def Failure.code (codes : StatusCodes) : Failure → Nat
  | .malformedStart => codes.malformedStart
  | .truncated => codes.truncated
  | .versionMismatch => codes.versionMismatch
  | .unknownCommand => codes.unknownCommand
  | .checksumMismatch => codes.checksumMismatch
  | .frameTooLarge => codes.frameTooLarge

/-- The number on a status output: the failure's, and that of success for every other result (60_exceptions.md R132;
log 20). -/
def Output.status (codes : StatusCodes) : Output → Nat
  | .encoded (.err k) => k.code codes
  | .decoded (.err k) => k.code codes
  | .received (.dropped k) => k.code codes
  | .bytes _ => codes.ok
  | .sum _ => codes.ok
  | .encoded (.ok _) => codes.ok
  | .decoded (.ok _) => codes.ok
  | .candidate _ => codes.ok
  | .received .absent => codes.ok
  | .received (.frame _) => codes.ok

/-- The number this machine shows for a result (00_scope.md R7, 60_exceptions.md R132). -/
def State.statusOf (s : State) (o : Output) : Nat := o.status s.config.status

end Sys2Proof.Machine

namespace Sys2Proof

/-- The operations of the RX agent on the reassembler, which one reader alone performs (20_memory.md R34, R35). -/
def Instr.usesReassembler : Instr → Bool
  | .feedStart => true
  | .feedData _ => true
  | .feed _ => true
  | .flush => true
  | .rxByte _ => true
  | .rxFlush => true
  | .reset => true
  | .canSend _ => false
  | .heartbeat _ => false
  | .ack _ => false
  | .nack _ => false
  | .deviceInfo _ => false
  | .ping _ => false
  | .configGet _ => false
  | .configSet _ => false
  | .resetCommand _ => false
  | .setFilter _ => false
  | .clearFilter _ => false
  | .escEscape _ => false
  | .escPass _ => false
  | .unescLead _ => false
  | .unescPass _ => false
  | .esc _ => false
  | .escSeq _ => false
  | .unesc _ => false
  | .csum _ => false
  | .encode _ _ _ _ => false
  | .decode _ => false

end Sys2Proof
end

