-- ==== Sys2Proof/Machine/Primitives.lean ====
section
/-! DEFINITION. The escape and checksum primitives: ESC, ESCSEQ, UNESC, CSUM and their byte classes (40_primitives.md). -/

namespace Sys2Proof.Machine

/-- ESC (40_primitives.md R65, 30_encoding.md R50). -/
def esc (b : Byte) : List Byte :=
  if b = START_BYTE ∨ b = ESC_BYTE then [ESC_BYTE, b ^^^ ESC_XOR] else [b]

/-- ESCSEQ (40_primitives.md R66). -/
def escSeq : List Byte → List Byte
  | [] => []
  | b :: s => esc b ++ escSeq s

/-- UNESC (40_primitives.md R68): the byte after a lead is XORed whatever it is (D6), a bare 0xAA passes (D7), a dangling
lead is dropped (D9); log 14. -/
def unesc : List Byte → List Byte
  | [] => []
  | [b] => if b = ESC_BYTE then [] else [b]
  | b :: x :: s => if b = ESC_BYTE then (x ^^^ ESC_XOR) :: unesc s else b :: unesc (x :: s)

/-- CSUM with the accumulator at `acc` (40_primitives.md R71, R73). -/
def csumFrom (acc : Byte) : List Byte → Byte
  | [] => acc
  | b :: s => csumFrom (acc + b) s

/-- CSUM: the additive sum modulo 256, the carry discarded (40_primitives.md R71). -/
def csum (s : List Byte) : Byte := csumFrom 0x00 s

/-- ESC.escape: output `[0xAB, b XOR 0x20]` (40_primitives.md R65). -/
def execEscEscape (b : Byte) (s : State) : Host.Outcome State Fault Refusal :=
  .next (s.emit (.bytes [ESC_BYTE, b ^^^ ESC_XOR]))

/-- ESC.pass: output `[b]` (40_primitives.md R65). -/
def execEscPass (b : Byte) (s : State) : Host.Outcome State Fault Refusal :=
  .next (s.emit (.bytes [b]))

/-- UNESC.lead: the lead is dropped and the next byte yields `x XOR 0x20`; alone it yields nothing (40_primitives.md R68). -/
def execUnescLead (next : Option Byte) (s : State) : Host.Outcome State Fault Refusal :=
  match next with
  | some x => .next (s.emit (.bytes [x ^^^ ESC_XOR]))
  | none => .next (s.emit (.bytes []))

/-- UNESC.pass: yields itself, 0xAA included (40_primitives.md R68). -/
def execUnescPass (b : Byte) (s : State) : Host.Outcome State Fault Refusal :=
  .next (s.emit (.bytes [b]))

/-- Operation ESC (40_primitives.md R65). -/
def execEsc (b : Byte) (s : State) : Host.Outcome State Fault Refusal :=
  .next (s.emit (.bytes (esc b)))

/-- Operation ESCSEQ (40_primitives.md R66). -/
def execEscSeq (bs : List Byte) (s : State) : Host.Outcome State Fault Refusal :=
  .next (s.emit (.bytes (escSeq bs)))

/-- Operation UNESC (40_primitives.md R68). -/
def execUnesc (bs : List Byte) (s : State) : Host.Outcome State Fault Refusal :=
  .next (s.emit (.bytes (unesc bs)))

/-- Operation CSUM (40_primitives.md R71). -/
def execCsum (bs : List Byte) (s : State) : Host.Outcome State Fault Refusal :=
  .next (s.emit (.sum (csum bs)))

end Sys2Proof.Machine
end

