-- ==== Sys2Proof/Machine/Codec.lean ====
section
/-! DEFINITION. The frame codec: ENCODE and DECODE, pure functions of their operands (41_codec.md). -/

namespace Sys2Proof.Machine

/-- The payload ENCODE builds: header, data, checksum over all of them (41_codec.md R80, 30_encoding.md R49). -/
def encodePayload (c : Command) (canId : CanId) (extended : Bool) (data : List Byte) : List Byte :=
  let p := header c.code canId extended data
  p ++ [csum p]

/-- The packet whose payload is `p`: the delimiter and the escaped payload (30_encoding.md R40). -/
def packetOf (p : List Byte) : List Byte := START_BYTE :: escSeq p

/-- ENCODE (41_codec.md R80): more than 15 data bytes give `FrameTooLarge` and no packet. -/
def encodeFrame (c : Command) (canId : CanId) (extended : Bool) (data : List Byte) : EncodeResult :=
  if data.length > MAX_DATA then .err .frameTooLarge
  else .ok (packetOf (encodePayload c canId extended data))

/-- DECODE checks (5) and (6) and the success result, for a payload of at least 8 bytes with a known command
(41_codec.md R88, R89, R90). -/
def decodeBody (pos : CsumPos) (c : Command) (p : List Byte) : DecodeResult :=
  let dlc := flagsDlc (flagsField p)
  let at_ := checksumIndex pos dlc
  if p.length < HDR_LEN + dlc + 1 then .err .truncated
  else if csum (p.take at_) ≠ payloadAt p at_ then .err .checksumMismatch
  else .ok
    { command := c
      canId := canIdField p
      data := dataField p dlc
      extended := flagsExtended (flagsField p)
      flags := flagsField p }

/-- DECODE checks (2) to (6), in order, on the unescaped payload (41_codec.md R83, R85 to R90). -/
def decodePayload (pos : CsumPos) (p : List Byte) : DecodeResult :=
  if p.length < MIN_PAYLOAD then .err .truncated
  else if versionField p ≠ VERSION then .err .versionMismatch
  else match cmdOf (commandField p) with
    | none => .err .unknownCommand
    | some c => decodeBody pos c p

/-- DECODE with the parameter `CSUM_POS` named (41_codec.md R83): check (1), then the rest on what UNESC yields. -/
def decodePacketAt (pos : CsumPos) (raw : List Byte) : DecodeResult :=
  match raw with
  | [] => .err .malformedStart
  | b :: body => if b ≠ START_BYTE then .err .malformedStart else decodePayload pos (unesc body)

/-- DECODE with `CSUM_POS = at_dlc`, the one legal value (41_codec.md R83, 00_scope.md R7; log 10). -/
def decodePacket (raw : List Byte) : DecodeResult := decodePacketAt .atDlc raw

/-- Operation ENCODE (41_codec.md R80). -/
def execEncode (c : Command) (canId : CanId) (extended : Bool) (data : List Byte) (s : State) :
    Host.Outcome State Fault Refusal :=
  .next (s.emit (.encoded (encodeFrame c canId extended data)))

/-- Operation DECODE (41_codec.md R83). -/
def execDecode (raw : List Byte) (s : State) : Host.Outcome State Fault Refusal :=
  .next (s.emit (.decoded (decodePacketAt s.config.csumPos raw)))

end Sys2Proof.Machine
end

