-- ==== Sys2Proof/Machine/Commands.lean ====
section
/-! DEFINITION. The eleven commands. The codec gives all of them the same treatment: ENCODE writes the code, DECODE
recognises it (41_codec.md R94); the block acts on none it decodes (70_reset_and_hazards.md R171). -/

namespace Sys2Proof.Machine

/-- What the codec does with a command: sent, its frame is encoded (41_codec.md R80); arrived, the packet with its
payload is decoded (41_codec.md R83). DEDUCED from the table's "operand of ENCODE, result of DECODE" (log 5). -/
def carryCommand (c : Command) (form : CommandForm) (s : State) : State :=
  match form with
  | .send canId extended data => s.emit (.encoded (encodeFrame c canId extended data))
  | .receive rest => s.emit (.decoded (decodePacketAt s.config.csumPos (packetOf (VERSION :: c.code :: rest))))

/-- Command CAN_SEND, code 0x01 (41_codec.md R95). -/
def execCanSend (form : CommandForm) (s : State) : Host.Outcome State Fault Refusal :=
  .next (carryCommand .canSend form s)

/-- Command HEARTBEAT, code 0x02 (41_codec.md R96). -/
def execHeartbeat (form : CommandForm) (s : State) : Host.Outcome State Fault Refusal :=
  .next (carryCommand .heartbeat form s)

/-- Command ACK, code 0x03 (41_codec.md R97). -/
def execAck (form : CommandForm) (s : State) : Host.Outcome State Fault Refusal :=
  .next (carryCommand .ack form s)

/-- Command NACK, code 0x04; the block sends none on its own (41_codec.md R98). -/
def execNack (form : CommandForm) (s : State) : Host.Outcome State Fault Refusal :=
  .next (carryCommand .nack form s)

/-- Command DEVICE_INFO, code 0x10 (41_codec.md R99). -/
def execDeviceInfo (form : CommandForm) (s : State) : Host.Outcome State Fault Refusal :=
  .next (carryCommand .deviceInfo form s)

/-- Command PING, code 0x20 (41_codec.md R100). -/
def execPing (form : CommandForm) (s : State) : Host.Outcome State Fault Refusal :=
  .next (carryCommand .ping form s)

/-- Command CONFIG_GET, code 0x30; its key is an uninterpreted data byte (41_codec.md R101). -/
def execConfigGet (form : CommandForm) (s : State) : Host.Outcome State Fault Refusal :=
  .next (carryCommand .configGet form s)

/-- Command CONFIG_SET, code 0x31; its key and values are uninterpreted data bytes (41_codec.md R102). -/
def execConfigSet (form : CommandForm) (s : State) : Host.Outcome State Fault Refusal :=
  .next (carryCommand .configSet form s)

/-- Command RESET (the command), code 0x40; it does not reset the reassembler (41_codec.md R103). -/
def execResetCommand (form : CommandForm) (s : State) : Host.Outcome State Fault Refusal :=
  .next (carryCommand .reset form s)

/-- Command SET_FILTER, code 0x41 (41_codec.md R104). -/
def execSetFilter (form : CommandForm) (s : State) : Host.Outcome State Fault Refusal :=
  .next (carryCommand .setFilter form s)

/-- Command CLEAR_FILTER, code 0x42 (41_codec.md R105). -/
def execClearFilter (form : CommandForm) (s : State) : Host.Outcome State Fault Refusal :=
  .next (carryCommand .clearFilter form s)

end Sys2Proof.Machine
end

