-- ==== Sys2Proof/Machine/Reassembler.lean ====
section
/-! DEFINITION. The stream reassembler: FEED and FLUSH and the byte classes of FEED (42_reassembler.md). -/

namespace Sys2Proof.Machine

/-- Whether a buffer of `n` bytes takes one more (42_reassembler.md R113, D13; log 9). -/
def hasRoom (cap : Option Nat) (n : Nat) : Bool :=
  match cap with
  | none => true
  | some m => decide (n < m)

/-- The candidate made of a buffer: the leading 0xAA is supplied at emission (42_reassembler.md R117, D26). -/
def candidateOf (buf : List Byte) : List Byte := START_BYTE :: buf

/-- FEED of `START_BYTE`: closes a candidate (42_reassembler.md R111), or arms and clears (R112, D10; log 15). -/
def Rsm.feedStart (r : Rsm) : Rsm × Option (List Byte) :=
  if r.armed ∧ 0 < r.buf.length then ({ r with buf := [] }, some (candidateOf r.buf))
  else ({ buf := [], armed := true }, none)

/-- FEED of any other byte: collected when armed (42_reassembler.md R113), discarded otherwise (R114). -/
def Rsm.feedData (cap : Option Nat) (r : Rsm) (b : Byte) : Rsm × Option (List Byte) :=
  if r.armed then
    if hasRoom cap r.buf.length then ({ r with buf := r.buf ++ [b] }, none) else (r, none)
  else (r, none)

/-- FEED (42_reassembler.md R110). -/
def Rsm.feed (cap : Option Nat) (r : Rsm) (b : Byte) : Rsm × Option (List Byte) :=
  if b = START_BYTE then r.feedStart else r.feedData cap b

/-- FLUSH: emits and clears a non-empty buffer and leaves `armed` (42_reassembler.md R115, D11; log 15). -/
def Rsm.flush (r : Rsm) : Rsm × Option (List Byte) :=
  if 0 < r.buf.length then ({ r with buf := [] }, some (candidateOf r.buf)) else (r, none)

/-- RESET: whatever was in the buffer is discarded without being emitted (70_reset_and_hazards.md R156, D15; log 16). -/
def Rsm.clear (_ : Rsm) : Rsm := { buf := [], armed := false }

/-- One event at a reassembler of capacity `cap` (42_reassembler.md R118). -/
def Rsm.event (cap : Option Nat) (r : Rsm) : RsmEvent → Rsm × Option (List Byte)
  | .feed b => r.feed cap b
  | .flush => r.flush
  | .reset => (r.clear, none)

/-- A sequence of events, with the result of each in order (20_memory.md R33, 42_reassembler.md R123). -/
def Rsm.run (cap : Option Nat) (r : Rsm) : List RsmEvent → Rsm × List (Option (List Byte))
  | [] => (r, [])
  | e :: es =>
    let (r1, c) := r.event cap e
    let (r2, cs) := r1.run cap es
    (r2, c :: cs)

/-- The state of the state machine, none for the unreachable pair (42_reassembler.md R118). -/
def Rsm.phase (r : Rsm) : Option Phase :=
  match r.armed, r.buf with
  | false, [] => some .hunt
  | true, [] => some .sync
  | true, _ :: _ => some .collect
  | false, _ :: _ => none

/-- Puts a reassembler's new state in place and returns its candidate to the host. -/
def returnCandidate (s : State) (x : Rsm × Option (List Byte)) : State :=
  (s.setRsm x.1).emit (.candidate x.2)

/-- FEED.start (42_reassembler.md R111, R112). -/
def execFeedStart (s : State) : Host.Outcome State Fault Refusal :=
  .next (returnCandidate s s.rsm.feedStart)

/-- FEED.data: FEED of a byte of this class (42_reassembler.md R113, R114). -/
def execFeedData (b : Byte) (s : State) : Host.Outcome State Fault Refusal :=
  .next (returnCandidate s (s.rsm.feed s.config.rsmCap b))

/-- Operation FEED (42_reassembler.md R110). -/
def execFeed (b : Byte) (s : State) : Host.Outcome State Fault Refusal :=
  .next (returnCandidate s (s.rsm.feed s.config.rsmCap b))

/-- Operation FLUSH (42_reassembler.md R115). -/
def execFlush (s : State) : Host.Outcome State Fault Refusal :=
  .next (returnCandidate s s.rsm.flush)

/-- Operation RESET: no result is returned (70_reset_and_hazards.md R156). It is not the RESET command (R171). -/
def execReset (s : State) : Host.Outcome State Fault Refusal :=
  .next (s.setRsm s.rsm.clear)

end Sys2Proof.Machine
end

