-- ==== Sys2Proof/Machine/Receive.lean ====
section
/-! DEFINITION. The receive wiring: RXBYTE and RXFLUSH hand each candidate to DECODE (42_reassembler.md R121 to R123). -/

namespace Sys2Proof.Machine

/-- DECODE of what FEED or FLUSH emitted, as RXBYTE and RXFLUSH return it (42_reassembler.md R121, R122; log 24). -/
def receiveCandidate (pos : CsumPos) (c : Option (List Byte)) : RxResult :=
  match c with
  | none => .absent
  | some raw =>
    match decodePacketAt pos raw with
    | .ok f => .frame f
    | .err k => .dropped k

/-- Puts a reassembler's new state in place and returns what its candidate decodes to. -/
def returnReceived (s : State) (x : Rsm × Option (List Byte)) : State :=
  (s.setRsm x.1).emit (.received (receiveCandidate s.config.csumPos x.2))

/-- Operation RXBYTE: FEED, then DECODE of what it emits (42_reassembler.md R121). -/
def execRxByte (b : Byte) (s : State) : Host.Outcome State Fault Refusal :=
  .next (returnReceived s (s.rsm.feed s.config.rsmCap b))

/-- Operation RXFLUSH: FLUSH, then DECODE of what it emits (42_reassembler.md R122). -/
def execRxFlush (s : State) : Host.Outcome State Fault Refusal :=
  .next (returnReceived s s.rsm.flush)

end Sys2Proof.Machine
end

