-- ==== Sys2Proof/Machine/Dispatch.lean ====
section
/-! DEFINITION. One arm per instruction, each one direct call of its meaning. -/

namespace Sys2Proof.Machine

def exec (i : Instr) (s : State) : Host.Outcome State Fault Refusal :=
  match i with
  | .canSend form => Sys2Proof.Machine.execCanSend form s
  | .heartbeat form => Sys2Proof.Machine.execHeartbeat form s
  | .ack form => Sys2Proof.Machine.execAck form s
  | .nack form => Sys2Proof.Machine.execNack form s
  | .deviceInfo form => Sys2Proof.Machine.execDeviceInfo form s
  | .ping form => Sys2Proof.Machine.execPing form s
  | .configGet form => Sys2Proof.Machine.execConfigGet form s
  | .configSet form => Sys2Proof.Machine.execConfigSet form s
  | .resetCommand form => Sys2Proof.Machine.execResetCommand form s
  | .setFilter form => Sys2Proof.Machine.execSetFilter form s
  | .clearFilter form => Sys2Proof.Machine.execClearFilter form s
  | .escEscape b => Sys2Proof.Machine.execEscEscape b s
  | .escPass b => Sys2Proof.Machine.execEscPass b s
  | .unescLead next => Sys2Proof.Machine.execUnescLead next s
  | .unescPass b => Sys2Proof.Machine.execUnescPass b s
  | .feedStart => Sys2Proof.Machine.execFeedStart s
  | .feedData b => Sys2Proof.Machine.execFeedData b s
  | .esc b => Sys2Proof.Machine.execEsc b s
  | .escSeq bs => Sys2Proof.Machine.execEscSeq bs s
  | .unesc bs => Sys2Proof.Machine.execUnesc bs s
  | .csum bs => Sys2Proof.Machine.execCsum bs s
  | .encode command canId extended data => Sys2Proof.Machine.execEncode command canId extended data s
  | .decode raw => Sys2Proof.Machine.execDecode raw s
  | .feed b => Sys2Proof.Machine.execFeed b s
  | .flush => Sys2Proof.Machine.execFlush s
  | .rxByte b => Sys2Proof.Machine.execRxByte b s
  | .rxFlush => Sys2Proof.Machine.execRxFlush s
  | .reset => Sys2Proof.Machine.execReset s

end Sys2Proof.Machine
end

