-- ==== Sys2Proof/WellFormed.lean ====
section
/-! DEFINITION. Which instructions the encodings and operand types of the spec admit. -/

namespace Sys2Proof

/-- A command row holds at most 15 data bytes when sent: its `flags.dlc` has four bits (30_encoding.md R46, R48).
A payload that arrives may be any byte sequence (41_codec.md R83). -/
def CommandForm.wellFormed : CommandForm → Bool
  | .send _ _ data => decide (data.length ≤ MAX_DATA)
  | .receive _ => true

/-- The operand of each instruction lies in its row's class (30_encoding.md R53) or its operand type (30_encoding.md R58).
ENCODE's data may have any length, all above 15 behaving alike (D23; log 21). -/
def Instr.wellFormed : Instr → Bool
  | .canSend f => f.wellFormed
  | .heartbeat f => f.wellFormed
  | .ack f => f.wellFormed
  | .nack f => f.wellFormed
  | .deviceInfo f => f.wellFormed
  | .ping f => f.wellFormed
  | .configGet f => f.wellFormed
  | .configSet f => f.wellFormed
  | .resetCommand f => f.wellFormed
  | .setFilter f => f.wellFormed
  | .clearFilter f => f.wellFormed
  | .escEscape b => decide (b = START_BYTE ∨ b = ESC_BYTE)
  | .escPass b => decide (b ≠ START_BYTE ∧ b ≠ ESC_BYTE)
  | .unescLead _ => true
  | .unescPass b => decide (b ≠ ESC_BYTE)
  | .feedStart => true
  | .feedData b => decide (b ≠ START_BYTE)
  | .esc _ => true
  | .escSeq _ => true
  | .unesc _ => true
  | .csum _ => true
  | .encode _ _ _ _ => true
  | .decode _ => true
  | .feed _ => true
  | .flush => true
  | .rxByte _ => true
  | .rxFlush => true
  | .reset => true

end Sys2Proof
end

