-- ==== Sys2Proof/Decode.lean ====
section
/-! DEFINITION. Reading an instruction from a request, total on any bytes and rejecting by name, and writing one back.
The bytes of the payload and byte-class ports are the words of spec/opcode_table.json; those of the operation ports are
the operands of 30_encoding.md R58 in order, a layout of the model's own (DESIGN CHOICE, log 3). -/

namespace Sys2Proof

/-- What the decoder answers: an instruction, or the reason it rejects the bytes. -/
inductive Reading where
  | instr (i : Instr)
  | rejected (r : Machine.Refusal)
deriving DecidableEq, Repr

/-- The row of a command (30_encoding.md R47). -/
def Instr.ofCommand (c : Command) (form : CommandForm) : Instr :=
  match c with
  | .canSend => .canSend form
  | .heartbeat => .heartbeat form
  | .ack => .ack form
  | .nack => .nack form
  | .deviceInfo => .deviceInfo form
  | .ping => .ping form
  | .configGet => .configGet form
  | .configSet => .configSet form
  | .reset => .resetCommand form
  | .setFilter => .setFilter form
  | .clearFilter => .clearFilter form

/-- A payload before its checksum, to be sent (30_encoding.md R41). A word ENCODE never writes is rejected by name: another
version (R62), a command outside the set (R54, U3), flags bits 6 to 4 set (R55), a length that is not the declared one
(log 7). -/
def decodeTxPayload (bs : List Byte) : Reading :=
  match bs with
  | v :: c :: i0 :: i1 :: i2 :: i3 :: flags :: data =>
    if v ≠ VERSION then .rejected (.illegalVersion v)
    else match cmdOf c with
      | none => .rejected (.commandOutsideSet c)
      | some cmd =>
        if Machine.flagsUnnamed flags ≠ 0x00 then .rejected (.unnamedFlagBits flags)
        else if data.length ≠ Machine.flagsDlc flags then .rejected (.malformedRequest .txPayload)
        else .instr (.ofCommand cmd (.send (Machine.be32 i0 i1 i2 i3) (Machine.flagsExtended flags) data))
  | _ => .rejected (.malformedRequest .txPayload)

/-- A payload as it arrived. One whose first two bytes are a row's is that command; any other is the DECODE of the packet
that carries it, which answers with the failure the spec gives (41_codec.md R83; log 6). -/
def decodeRxPayload (bs : List Byte) : Reading :=
  match bs with
  | v :: c :: rest =>
    if v ≠ VERSION then .instr (.decode (Machine.packetOf bs))
    else match cmdOf c with
      | none => .instr (.decode (Machine.packetOf bs))
      | some cmd => .instr (.ofCommand cmd (.receive rest))
  | _ => .instr (.decode (Machine.packetOf bs))

/-- One byte at ESC's input (30_encoding.md R53). -/
def decodePayloadByte (bs : List Byte) : Reading :=
  match bs with
  | [b] => if b &&& 0xFE = START_BYTE then .instr (.escEscape b) else .instr (.escPass b)
  | _ => .rejected (.malformedRequest .payloadByte)

/-- One body byte at UNESC's input, with the byte after a lead (30_encoding.md R53; log 22). -/
def decodeBodyByte (bs : List Byte) : Reading :=
  match bs with
  | [b] => if b = ESC_BYTE then .instr (.unescLead none) else .instr (.unescPass b)
  | [b, x] => if b = ESC_BYTE then .instr (.unescLead (some x)) else .rejected (.malformedRequest .bodyByte)
  | _ => .rejected (.malformedRequest .bodyByte)

/-- One byte of the live stream at FEED's input (30_encoding.md R53). -/
def decodeStreamByte (bs : List Byte) : Reading :=
  match bs with
  | [b] => if b = START_BYTE then .instr .feedStart else .instr (.feedData b)
  | _ => .rejected (.malformedRequest .streamByte)

/-- The operands of ENCODE: command byte, can_id most significant byte first, extended as 0 or 1, data (log 3). A command
byte outside the set has no step (93_implementation_defined.md U3). Data of any length is an operand: R58 types it with 0 to
255 bytes to keep it finite, and D23 has any length above 15 behave alike (log 21). -/
def decodeEncodePort (bs : List Byte) : Reading :=
  match bs with
  | c :: i0 :: i1 :: i2 :: i3 :: e :: data =>
    match cmdOf c with
    | none => .rejected (.commandOutsideSet c)
    | some cmd =>
      if e = 0x00 then .instr (.encode cmd (Machine.be32 i0 i1 i2 i3) false data)
      else if e = 0x01 then .instr (.encode cmd (Machine.be32 i0 i1 i2 i3) true data)
      else .rejected (.malformedRequest .encode)
  | _ => .rejected (.malformedRequest .encode)

/-- An operation with one byte operand (30_encoding.md R58). -/
def decodeOneByte (port : Port) (mk : Byte → Instr) (bs : List Byte) : Reading :=
  match bs with
  | [b] => .instr (mk b)
  | _ => .rejected (.malformedRequest port)

/-- An operation with no operand (30_encoding.md R58). -/
def decodeNoByte (port : Port) (i : Instr) (bs : List Byte) : Reading :=
  match bs with
  | [] => .instr i
  | _ => .rejected (.malformedRequest port)

/-- Reads the instruction presented on a port. -/
def decode (port : Port) (bs : List Byte) : Reading :=
  match port with
  | .txPayload => decodeTxPayload bs
  | .rxPayload => decodeRxPayload bs
  | .payloadByte => decodePayloadByte bs
  | .bodyByte => decodeBodyByte bs
  | .streamByte => decodeStreamByte bs
  | .esc => decodeOneByte .esc .esc bs
  | .escSeq => .instr (.escSeq bs)
  | .unesc => .instr (.unesc bs)
  | .csum => .instr (.csum bs)
  | .encode => decodeEncodePort bs
  | .decode => .instr (.decode bs)
  | .feed => decodeOneByte .feed .feed bs
  | .flush => decodeNoByte .flush .flush bs
  | .rxByte => decodeOneByte .rxByte .rxByte bs
  | .rxFlush => decodeNoByte .rxFlush .rxFlush bs
  | .reset => decodeNoByte .reset .reset bs

/-- The port and words of a command (30_encoding.md R41). -/
def encodeCommand (c : Command) (form : CommandForm) : Port × List Byte :=
  match form with
  | .send canId extended data => (.txPayload, Machine.header c.code canId extended data)
  | .receive rest => (.rxPayload, VERSION :: c.code :: rest)

/-- The operands of ENCODE as bytes (log 3). -/
def encodeEncodePort (c : Command) (canId : CanId) (extended : Bool) (data : List Byte) : List Byte :=
  [c.code, Machine.byteK canId 0, Machine.byteK canId 1, Machine.byteK canId 2, Machine.byteK canId 3,
    if extended then 0x01 else 0x00] ++ data

/-- The port and the words of an instruction. -/
def encode (i : Instr) : Port × List Byte :=
  match i with
  | .canSend f => encodeCommand .canSend f
  | .heartbeat f => encodeCommand .heartbeat f
  | .ack f => encodeCommand .ack f
  | .nack f => encodeCommand .nack f
  | .deviceInfo f => encodeCommand .deviceInfo f
  | .ping f => encodeCommand .ping f
  | .configGet f => encodeCommand .configGet f
  | .configSet f => encodeCommand .configSet f
  | .resetCommand f => encodeCommand .reset f
  | .setFilter f => encodeCommand .setFilter f
  | .clearFilter f => encodeCommand .clearFilter f
  | .escEscape b => (.payloadByte, [b])
  | .escPass b => (.payloadByte, [b])
  | .unescLead none => (.bodyByte, [ESC_BYTE])
  | .unescLead (some x) => (.bodyByte, [ESC_BYTE, x])
  | .unescPass b => (.bodyByte, [b])
  | .feedStart => (.streamByte, [START_BYTE])
  | .feedData b => (.streamByte, [b])
  | .esc b => (.esc, [b])
  | .escSeq s => (.escSeq, s)
  | .unesc s => (.unesc, s)
  | .csum s => (.csum, s)
  | .encode c canId extended data => (.encode, encodeEncodePort c canId extended data)
  | .decode raw => (.decode, raw)
  | .feed b => (.feed, [b])
  | .flush => (.flush, [])
  | .rxByte b => (.rxByte, [b])
  | .rxFlush => (.rxFlush, [])
  | .reset => (.reset, [])

/-- Byte `k` of a word as spec/opcode_table.json numbers it, for a row of 16 bits and more: the table's first word is 16
bits with payload byte 0 in its high byte and payload byte 1 in its low byte, and a later byte's bits count on (log 4). -/
def tableByte (w k : Nat) : Byte :=
  match k with
  | 0 => BitVec.ofNat 8 (w / 256)
  | 1 => BitVec.ofNat 8 w
  | n => BitVec.ofNat 8 (w / 256 ^ n)

/-- The request that presents a table word. A word of 16 bits or more is a payload to be sent, as long as its flags byte
declares. A word of one byte is presented at the unit of the most specific row it matches: 0xAA at FEED (FEED.start),
0xAB at UNESC with the next byte (UNESC.lead), any other at FEED (FEED.data). The table gives ESC, UNESC and FEED the same
byte values (30_encoding.md R53), so one reading of a bare byte must be chosen (DESIGN CHOICE, log 4). A row with no bits
has no word. -/
def tableRequest (nbits w : Nat) : Option (Port × List Byte) :=
  if nbits = 0 then none
  else if nbits ≤ 8 then
    let b := BitVec.ofNat 8 w
    if b = ESC_BYTE then some (.bodyByte, [b, BitVec.ofNat 8 (w / 256)]) else some (.streamByte, [b])
  else some (.txPayload, (List.range (HDR_LEN + Machine.flagsDlc (tableByte w 6))).map (tableByte w))

/-- The instruction the decoder reads from a table word, none where it refuses. -/
def decodeTableWord (nbits w : Nat) : Option Instr :=
  match tableRequest nbits w with
  | none => none
  | some (port, bs) =>
    match decode port bs with
    | .instr i => some i
    | .rejected _ => none

end Sys2Proof
end

