-- ==== Sys2Proof/Machine/Fetch.lean ====
section
/-! DEFINITION. Taking the next operation the host has presented (20_memory.md R33, R35). -/

namespace Sys2Proof.Machine

/-- Whether the context `context` may perform `i` (20_memory.md R35, U1): an operation on the reassembler belongs to the
one reader, an operation that touches no state to anyone (20_memory.md R34). DESIGN CHOICE, log 8. -/
def State.admits (s : State) (context : Nat) (i : Instr) : Bool :=
  !i.usesReassembler || s.reader == none || s.reader == some context

/-- The state an operation runs in: its request taken off the list, its context noted as the reader when it is one of
the RX agent's (10_state.md R23; log 8). -/
def State.take (s : State) (context : Nat) (i : Instr) (rest : List Request) : State :=
  { s with requests := rest, reader := if i.usesReassembler then some context else s.reader }

/-- Performs the oldest request with the meanings `run`. With none pending nothing happens: the block "simply holds" its
state (60_exceptions.md R145, R151; DESIGN CHOICE, log 1). -/
def performNext (run : Instr → State → Host.Outcome State Fault Refusal) (s : State) :
    Host.Outcome State Fault Refusal :=
  match s.requests with
  | [] => .next s
  | q :: rest =>
    match decode q.port q.bytes with
    | .rejected r => .refused r
    | .instr i =>
      if s.admits q.context i then run i (s.take q.context i rest)
      else .refused (.secondReader (s.reader.getD q.context) q.context)

/-- Presents a request ahead of those pending, from the context that may perform it. -/
def State.present (s : State) (port : Port) (bs : List Byte) : State :=
  { s with requests := { context := s.reader.getD 0, port := port, bytes := bs } :: s.requests }

end Sys2Proof.Machine
end

