-- ==== Sys2Proof/Machine/Step.lean ====
section
/-! DEFINITION. One step: the oldest pending operation is performed whole, as one atomic step (20_memory.md R29). -/

namespace Sys2Proof.Machine

/-- One step of the block. -/
def step (s : State) : Host.Outcome State Fault Refusal := performNext exec s

/-- The table word `w` presented as the next operation (logs 1 and 4). A row with no bits has no word: nothing is
presented. -/
def State.withFetchWord (s : State) (nbits w : Nat) : State :=
  match tableRequest nbits w with
  | none => s
  | some (port, bs) => s.present port bs

end Sys2Proof.Machine
end

