-- ==== Sys2Proof/Machine/Streaming.lean ====
section
/-! DEFINITION. The byte-at-a-time forms the spec gives of UNESC, ENCODE and DECODE (40_primitives.md R69, R73,
41_codec.md R81). Their working registers start anew in every operation and are no state of the block (10_state.md R19;
log 18). -/

namespace Sys2Proof.Machine

/-- One byte at the streaming UNESC: the new `esc_pending` and the byte emitted, if any (40_primitives.md R69). -/
def unescStep (pending : Bool) (b : Byte) : Bool × Option Byte :=
  if pending then (false, some (b ^^^ ESC_XOR))
  else if b = ESC_BYTE then (true, none)
  else (false, some b)

/-- The streaming UNESC from a given `esc_pending`; at end of input a pending lead emits nothing (40_primitives.md R69). -/
def unescStream (pending : Bool) : List Byte → List Byte
  | [] => []
  | b :: s =>
    match unescStep pending b with
    | (p, some x) => x :: unescStream p s
    | (p, none) => unescStream p s

/-- The streaming ENCODE after the delimiter: each payload byte is escaped as it is formed and added to `acc`, and the
escaped sum comes last (40_primitives.md R73, 41_codec.md R81). -/
def encodeStream (acc : Byte) : List Byte → List Byte
  | [] => esc acc
  | b :: s => esc b ++ encodeStream (acc + b) s

/-- The working registers of a streaming DECODE (10_state.md R19, 40_primitives.md R73). -/
structure DecodeStream where
  /-- `esc_pending`. -/
  pending : Bool
  /-- The index of the next payload byte. -/
  index : Nat
  /-- The running sum. -/
  acc : Byte
  /-- The declared data length, once payload byte 6 has been seen. -/
  dlc : Nat
  /-- Whether the checksum agreed, once its byte has been seen. -/
  agreed : Option Bool
deriving DecidableEq, Repr

/-- The start values of the working registers (10_state.md R19). -/
def DecodeStream.start : DecodeStream := { pending := false, index := 0, acc := 0x00, dlc := 0, agreed := none }

/-- One payload byte: added up to index `6 + dlc`, compared at index `7 + dlc`, ignored after (40_primitives.md R73). -/
def DecodeStream.payloadByte (st : DecodeStream) (x : Byte) : DecodeStream :=
  let dlc := if st.index = 6 then flagsDlc x else st.dlc
  if st.index < HDR_LEN + dlc then { st with index := st.index + 1, dlc := dlc, acc := st.acc + x }
  else if st.index = HDR_LEN + dlc then { st with index := st.index + 1, agreed := some (st.acc == x) }
  else { st with index := st.index + 1 }

/-- The streaming DECODE's checksum over the body of a packet (40_primitives.md R73). -/
def DecodeStream.run (st : DecodeStream) : List Byte → DecodeStream
  | [] => st
  | b :: s =>
    match unescStep st.pending b with
    | (p, some x) => ({ st with pending := p }.payloadByte x).run s
    | (p, none) => { st with pending := p }.run s

end Sys2Proof.Machine
end

