-- ==== Sys2Proof/Machine/Pseudo.lean ====
section
/-! DEFINITION. The pseudo-operations of 30_encoding.md R60, each a function giving the instructions it expands to, and
performing a list of instructions in order. -/

namespace Sys2Proof.Machine

/-- `send(can_id, data, extended)` (30_encoding.md R60, 41_codec.md R95). -/
def pseudoSend (canId : CanId) (data : List Byte) (extended : Bool) : Instr := .encode .canSend canId extended data

/-- `send_command(command, payload)`: "`can_id` fixed at 0" (30_encoding.md R60; `ext=0` is D17, log 25). -/
def pseudoSendCommand (c : Command) (payload : List Byte) : Instr := .encode c 0 false payload

/-- `send_config_get(key_id)`: `data = [key_id]` (30_encoding.md R60, 41_codec.md R101; D17, log 25). -/
def pseudoSendConfigGet (keyId : Byte) : Instr := .encode .configGet 0 false [keyId]

/-- `send_config_set(key_id, values)`: `data = [key_id] ++ values` (30_encoding.md R60, 41_codec.md R102; D17, log 25). -/
def pseudoSendConfigSet (keyId : Byte) (values : List Byte) : Instr := .encode .configSet 0 false (keyId :: values)

/-- `FEEDSEQ s` (30_encoding.md R60). -/
def pseudoFeedSeq (s : List Byte) : List Instr := s.map .feed

/-- `RXSEQ s`, which is also the block's part of `pump()` (30_encoding.md R60). -/
def pseudoRxSeq (s : List Byte) : List Instr := s.map .rxByte

/-- Performs operations one after another, each seeing the state the previous one left (20_memory.md R33). -/
def performAll : List Instr → State → Host.Outcome State Fault Refusal
  | [], s => .next s
  | i :: is, s =>
    match exec i s with
    | .next t => performAll is t
    | .fault r => .fault r
    | .refused r => .refused r

end Sys2Proof.Machine
end

