-- ==== Sys2Proof/Safety.lean ====
section
/-! DEFINITION. What counts as a legal state of the block, and the readings of its history that claims speak of. -/

namespace Sys2Proof.Machine

/-- Whether a buffer respects the capacity (10_state.md R24 (c)). -/
def withinCap (cap : Option Nat) (n : Nat) : Bool :=
  match cap with
  | none => true
  | some m => decide (n ≤ m)

/-- The invariants of the reassembler (10_state.md R24 (a) to (c), 42_reassembler.md R116): a non-empty buffer implies
armed, no 0xAA in the buffer, the capacity respected. -/
abbrev Rsm.Legal (cap : Option Nat) (r : Rsm) : Prop :=
  (r.buf ≠ [] → r.armed = true) ∧ START_BYTE ∉ r.buf ∧ withinCap cap r.buf.length = true

/-- A legal state of the block, for the capacity the machine is built with. -/
abbrev State.Legal (s : State) : Prop := s.rsm.Legal s.config.rsmCap

/-- The results other than `None` of RXBYTE and RXFLUSH, in order (42_reassembler.md R123). -/
def receivedOf : List Output → List RxResult
  | [] => []
  | .received .absent :: os => receivedOf os
  | .received r :: os => r :: receivedOf os
  | _ :: os => receivedOf os

/-- A result as the host sees it once it has decoded every candidate (42_reassembler.md R120, R121). -/
def throughDecode : Output → Output
  | .candidate c => .received (receiveCandidate .atDlc c)
  | o => o

/-- The candidates FEED and FLUSH emitted, in order (20_memory.md R33). -/
def candidatesOf : List Output → List (List Byte)
  | [] => []
  | .candidate (some c) :: os => c :: candidatesOf os
  | _ :: os => candidatesOf os

end Sys2Proof.Machine
end

