-- ==== Sys2Proof/Certificates/Slice0/Obligations.lean ====
section
/-! DEFINITION. The statements for the provers. Byte values, field positions and the order of checks are written out here
from the rules of spec/, not taken from the model's own constants. -/

namespace Sys2Proof.Claims

/-- The eleven command rows with the code the command map gives each (30_encoding.md R47). -/
def commandRows : List ((CommandForm → Instr) × Byte) :=
  [(.canSend, 0x01), (.heartbeat, 0x02), (.ack, 0x03), (.nack, 0x04), (.deviceInfo, 0x10), (.ping, 0x20),
    (.configGet, 0x30), (.configSet, 0x31), (.resetCommand, 0x40), (.setFilter, 0x41), (.clearFilter, 0x42)]

/-- The eleven commands with their codes (30_encoding.md R47). -/
def commandCodes : List (Command × Byte) :=
  [(.canSend, 0x01), (.heartbeat, 0x02), (.ack, 0x03), (.nack, 0x04), (.deviceInfo, 0x10), (.ping, 0x20),
    (.configGet, 0x30), (.configSet, 0x31), (.reset, 0x40), (.setFilter, 0x41), (.clearFilter, 0x42)]

/-- The payload before its checksum, byte by byte (30_encoding.md R41, R45, R46). -/
def unsummedPayload (code : Byte) (canId : CanId) (extended : Bool) (data : List Byte) : List Byte :=
  [0x01, code, (canId >>> 24).setWidth 8, (canId >>> 16).setWidth 8, (canId >>> 8).setWidth 8, canId.setWidth 8,
    (BitVec.ofNat 8 data.length &&& 0x0F) ||| (if extended then 0x80 else 0x00)] ++ data

/-- Payload byte `i`, where the payload has one. -/
def byteAt (p : List Byte) (i : Nat) : Byte := p.getD i 0x00

/-- The declared data length of a payload (30_encoding.md R46). -/
def declaredLength (p : List Byte) : Nat := (byteAt p 6 &&& 0x0F).toNat

/-- `s` with one more result returned. -/
def returning (s : Machine.State) (o : Machine.Output) : Machine.State := { s with outputs := s.outputs ++ [o] }

end Sys2Proof.Claims

open Sys2Proof Sys2Proof.Machine Sys2Proof.Claims

/-! ### Reset and invariants -/

/-- The state after reset is HUNT and legal. The reset values are the spec's own decision D12 (log 11). -/
def Obligations.ResetLeavesHuntState : Prop :=
  State.reset.rsm = { buf := [], armed := false } ∧ State.reset.rsm.phase = some .hunt ∧ State.reset.Legal

/-- Every step keeps the reassembler legal: a non-empty buffer implies armed, no 0xAA in the buffer, at most RSM_CAP
bytes (10_state.md section 11, 42_reassembler.md section Invariants). -/
def Obligations.StepKeepsLegal : Prop :=
  ∀ s t : State, s.Legal → step s = .next t → t.Legal

/-- The state machine's table, row by row, for every legal capacity (42_reassembler.md section Invariants). -/
def Obligations.ReassemblerFollowsItsTable : Prop :=
  ∀ (c : Config) (r : Rsm) (b : Byte), c.legal = true → b ≠ 0xAA →
    (r.phase = some .hunt →
      (r.event c.rsmCap (.feed 0xAA)).1.phase = some .sync ∧ (r.event c.rsmCap (.feed 0xAA)).2 = none ∧
      r.event c.rsmCap (.feed b) = (r, none) ∧ r.event c.rsmCap .flush = (r, none)) ∧
    (r.phase = some .sync →
      r.event c.rsmCap (.feed 0xAA) = (r, none) ∧
      (r.event c.rsmCap (.feed b)).1.phase = some .collect ∧ (r.event c.rsmCap (.feed b)).2 = none ∧
      r.event c.rsmCap .flush = (r, none)) ∧
    (r.phase = some .collect →
      (r.event c.rsmCap (.feed 0xAA)).1.phase = some .sync ∧ (r.event c.rsmCap (.feed 0xAA)).2 = some (0xAA :: r.buf) ∧
      (r.event c.rsmCap (.feed b)).1.phase = some .collect ∧ (r.event c.rsmCap (.feed b)).2 = none ∧
      (r.event c.rsmCap .flush).1.phase = some .sync ∧ (r.event c.rsmCap .flush).2 = some (0xAA :: r.buf)) ∧
    (r.event c.rsmCap .reset).1.phase = some .hunt ∧ (r.event c.rsmCap .reset).2 = none

/-! ### Primitives -/

/-- ESC on every byte and in every state (40_primitives.md R65). -/
def Obligations.EscEscapesTheTwoSpecialBytes : Prop :=
  ∀ (b : Byte) (s : State),
    (b = 0xAA ∨ b = 0xAB → exec (.esc b) s = .next (returning s (.bytes [0xAB, b ^^^ 0x20]))) ∧
    (b ≠ 0xAA → b ≠ 0xAB → exec (.esc b) s = .next (returning s (.bytes [b]))) ∧
    0xAA ∉ esc b

/-- The byte classes of ESC and UNESC return what their rows say and what the operation they are classes of returns
(30_encoding.md section 5). That a class is an instruction of its own is the model's reading (log 22). -/
def Obligations.ByteClassesActAsTheirOperation : Prop :=
  (∀ (b : Byte) (s : State), b = 0xAA ∨ b = 0xAB →
    exec (.escEscape b) s = .next (returning s (.bytes [0xAB, b ^^^ 0x20])) ∧ exec (.escEscape b) s = exec (.esc b) s) ∧
  (∀ (b : Byte) (s : State), b ≠ 0xAA → b ≠ 0xAB →
    exec (.escPass b) s = .next (returning s (.bytes [b])) ∧ exec (.escPass b) s = exec (.esc b) s) ∧
  (∀ (x : Byte) (s : State),
    exec (.unescLead (some x)) s = .next (returning s (.bytes [x ^^^ 0x20])) ∧
    exec (.unescLead (some x)) s = exec (.unesc [0xAB, x]) s) ∧
  (∀ s : State, exec (.unescLead none) s = .next (returning s (.bytes [])) ∧
    exec (.unescLead none) s = exec (.unesc [0xAB]) s) ∧
  (∀ (b : Byte) (s : State), b ≠ 0xAB →
    exec (.unescPass b) s = .next (returning s (.bytes [b])) ∧ exec (.unescPass b) s = exec (.unesc [b]) s)

/-- ESCSEQ escapes each byte on its own, in index order (40_primitives.md R66). -/
def Obligations.EscSeqEscapesEachByte : Prop :=
  (∀ (bs : List Byte) (s : State),
    exec (.escSeq bs) s = .next (returning s
      (.bytes (bs.flatMap fun b => if b = 0xAA ∨ b = 0xAB then [0xAB, b ^^^ 0x20] else [b])))) ∧
  (∀ bs ds : List Byte, escSeq (bs ++ ds) = escSeq bs ++ escSeq ds) ∧
  escSeq [] = [] ∧ escSeq [0xAB, 0x8A] = [0xAB, 0x8B, 0x8A]

/-- UNESC reads from left to right: a lead XORs the byte after it whatever it is, a last lead yields nothing, every other
byte yields itself (40_primitives.md section UNESC; D6, D7 and D9 are the spec's own choices, log 14). -/
def Obligations.UnescReadsLeftToRight : Prop :=
  (∀ (bs : List Byte) (s : State), exec (.unesc bs) s = .next (returning s (.bytes (unesc bs)))) ∧
  unesc [] = [] ∧ unesc [0xAB] = [] ∧
  (∀ (x : Byte) (bs : List Byte), unesc (0xAB :: x :: bs) = (x ^^^ 0x20) :: unesc bs) ∧
  (∀ (b : Byte) (bs : List Byte), b ≠ 0xAB → unesc (b :: bs) = b :: unesc bs)

/-- CSUM is the sum of the bytes over the integers, modulo 256 (40_primitives.md R71). -/
def Obligations.CsumIsTheSumModulo256 : Prop :=
  ∀ (bs : List Byte) (s : State),
    exec (.csum bs) s = .next (returning s (.sum (BitVec.ofNat 8 ((bs.map BitVec.toNat).sum % 256))))

/-- The checksum's laws: additive, blind to order, sensitive to one changed byte (40_primitives.md section CSUM). -/
def Obligations.CsumLaws : Prop :=
  (∀ bs ds : List Byte, csum (bs ++ ds) = csum bs + csum ds) ∧
  (∀ bs ds : List Byte, bs.Perm ds → csum bs = csum ds) ∧
  (∀ (bs : List Byte) (i : Nat) (b : Byte), i < bs.length → byteAt bs i ≠ b → csum (bs.set i b) ≠ csum bs)

/-- UNESC undoes ESCSEQ, and what follows an escaped sequence is unescaped on its own (40_primitives.md section UNESC, laws
(a) and (d)). -/
def Obligations.UnescInvertsEscSeq : Prop :=
  ∀ bs g : List Byte, unesc (escSeq bs) = bs ∧ unesc (escSeq bs ++ g) = bs ++ unesc g

/-- Each byte UNESC yields uses at most two input bytes (40_primitives.md section UNESC, law (e)). -/
def Obligations.UnescIsLocal : Prop :=
  ∀ (bs : List Byte) (k : Nat),
    (unesc bs).take k = (unesc (bs.take (2 * k))).take k ∧ (2 * k ≤ bs.length → k ≤ (unesc (bs.take (2 * k))).length)

/-- The byte-at-a-time forms of UNESC, ENCODE and DECODE's checksum agree with the sequence forms (40_primitives.md
sections UNESC and CSUM). -/
def Obligations.StreamingFormsAgree : Prop :=
  (∀ bs : List Byte, unescStream false bs = unesc bs) ∧
  (∀ (c : Command) (canId : CanId) (extended : Bool) (data : List Byte), data.length ≤ 15 →
    encodeFrame c canId extended data = .ok (0xAA :: encodeStream 0x00 (header c.code canId extended data))) ∧
  (∀ body : List Byte,
    (DecodeStream.start.run body).agreed =
      (if 8 ≤ (unesc body).length ∧ 8 + declaredLength (unesc body) ≤ (unesc body).length then
        some (decide (csum ((unesc body).take (7 + declaredLength (unesc body))) =
          byteAt (unesc body) (7 + declaredLength (unesc body))))
      else none))

/-! ### The frame codec -/

/-- ENCODE on every operand: the packet byte by byte, or FrameTooLarge and no packet (41_codec.md section ENCODE; D2, D3, D4
and D23 are the spec's own choices, logs 7, 13 and 21). -/
def Obligations.EncodeBuildsThePacket : Prop :=
  ∀ row ∈ commandCodes, ∀ (canId : CanId) (extended : Bool) (data : List Byte) (s : State),
    (data.length ≤ 15 → exec (.encode row.1 canId extended data) s = .next (returning s (.encoded (.ok
      (0xAA :: escSeq (unsummedPayload row.2 canId extended data ++
        [csum (unsummedPayload row.2 canId extended data)])))))) ∧
    (15 < data.length → exec (.encode row.1 canId extended data) s =
      .next (returning s (.encoded (.err .frameTooLarge))))

/-- FrameTooLarge has code 6, is returned by ENCODE exactly when the data is longer than 15 bytes, and by no DECODE
(60_exceptions.md R134). -/
def Obligations.FrameTooLargeExactlyOnLongData : Prop :=
  (∀ (c : Command) (canId : CanId) (extended : Bool) (data : List Byte) (s : State),
    exec (.encode c canId extended data) s = .next (returning s (.encoded (.err .frameTooLarge))) ↔ 15 < data.length) ∧
  (∀ (raw : List Byte) (s : State),
    exec (.decode raw) s ≠ .next (returning s (.decoded (.err .frameTooLarge)))) ∧
  (∀ (i : Instr) (s t : State), exec i s = .next t →
    t.outputs ≠ s.outputs ++ [.received (.dropped .frameTooLarge)]) ∧
  ∀ c : Config, c.legal = true → Failure.code c.status .frameTooLarge = 6

/-- DECODE checks (3), (4) and (5): the version before the command, the command before the declared length; a payload as
long as it declares, or longer, is not Truncated (41_codec.md R86, R87, R88). -/
def Obligations.DecodeChecksVersionCommandLength : Prop :=
  ∀ (body : List Byte) (s : State), 8 ≤ (unesc body).length →
    (byteAt (unesc body) 0 ≠ 0x01 →
      exec (.decode (0xAA :: body)) s = .next (returning s (.decoded (.err .versionMismatch)))) ∧
    (byteAt (unesc body) 0 = 0x01 → byteAt (unesc body) 1 ∉ commandCodes.map Prod.snd →
      exec (.decode (0xAA :: body)) s = .next (returning s (.decoded (.err .unknownCommand)))) ∧
    (byteAt (unesc body) 0 = 0x01 → byteAt (unesc body) 1 ∈ commandCodes.map Prod.snd →
      (unesc body).length < 7 + declaredLength (unesc body) + 1 →
      exec (.decode (0xAA :: body)) s = .next (returning s (.decoded (.err .truncated)))) ∧
    (¬ (unesc body).length < 7 + declaredLength (unesc body) + 1 →
      exec (.decode (0xAA :: body)) s ≠ .next (returning s (.decoded (.err .truncated))))

/-- DECODE check (2) comes before every check of the payload's contents: a payload shorter than 8 bytes is Truncated
(60_exceptions.md section 2, 41_codec.md section DECODE). -/
def Obligations.DecodeTruncatesShortPayloads : Prop :=
  ∀ (body : List Byte) (s : State), (unesc body).length < 8 →
    exec (.decode (0xAA :: body)) s = .next (returning s (.decoded (.err .truncated)))

/-- MalformedStart has code 1, is returned by DECODE exactly when the input is empty or does not begin with 0xAA, and never
through RXBYTE or RXFLUSH (60_exceptions.md R135). -/
def Obligations.MalformedStartExactlyOnBadFirstByte : Prop :=
  (∀ (raw : List Byte) (s : State),
    exec (.decode raw) s = .next (returning s (.decoded (.err .malformedStart))) ↔ raw.head? ≠ some 0xAA) ∧
  (∀ (i : Instr) (s t : State), exec i s = .next t →
    t.outputs ≠ s.outputs ++ [.received (.dropped .malformedStart)]) ∧
  ∀ c : Config, c.legal = true → Failure.code c.status .malformedStart = 1

/-- DECODE check (6): the checksum is payload byte 7 + dlc and covers the bytes before it; bytes after it take no part
(41_codec.md section DECODE; the position is the spec's own choice D8, log 10). -/
def Obligations.DecodeChecksTheSumAtDlc : Prop :=
  ∀ row ∈ commandCodes, ∀ (body : List Byte) (s : State),
    8 ≤ (unesc body).length → byteAt (unesc body) 0 = 0x01 → byteAt (unesc body) 1 = row.2 →
    8 + declaredLength (unesc body) ≤ (unesc body).length →
    (csum ((unesc body).take (7 + declaredLength (unesc body))) ≠
        byteAt (unesc body) (7 + declaredLength (unesc body)) →
      exec (.decode (0xAA :: body)) s = .next (returning s (.decoded (.err .checksumMismatch)))) ∧
    (csum ((unesc body).take (7 + declaredLength (unesc body))) =
        byteAt (unesc body) (7 + declaredLength (unesc body)) →
      ∃ f, f.command = row.1 ∧ exec (.decode (0xAA :: body)) s = .next (returning s (.decoded (.ok f))))

/-- The frame DECODE returns: every field from the payload, the data as long as the flags declare (41_codec.md R90). -/
def Obligations.DecodedFrameFields : Prop :=
  ∀ (body : List Byte) (s : State) (f : Frame),
    exec (.decode (0xAA :: body)) s = .next (returning s (.decoded (.ok f))) →
    (f.command, byteAt (unesc body) 1) ∈ commandCodes ∧
    f.canId.toNat = (byteAt (unesc body) 2).toNat * 2 ^ 24 + (byteAt (unesc body) 3).toNat * 2 ^ 16 +
      (byteAt (unesc body) 4).toNat * 2 ^ 8 + (byteAt (unesc body) 5).toNat ∧
    f.data = ((unesc body).drop 7).take (declaredLength (unesc body)) ∧
    f.flags = byteAt (unesc body) 6 ∧ (f.extended = true ↔ f.flags &&& 0x80 ≠ 0) ∧
    f.data.length = (f.flags &&& 0x0F).toNat

/-- DECODE of what ENCODE emits gives back the command and the frame, for every command, every 32-bit id, both values of
extended and every data of 0 to 15 bytes (41_codec.md section DECODE, law (a); D3 and D4 are the spec's own choices). -/
def Obligations.DecodeInvertsEncode : Prop :=
  ∀ (c : Command) (canId : CanId) (extended : Bool) (data : List Byte) (s u : State), data.length ≤ 15 →
    ∃ pkt, exec (.encode c canId extended data) s = .next (returning s (.encoded (.ok pkt))) ∧
      exec (.decode pkt) u = .next (returning u (.decoded (.ok
        { command := c
          canId := canId
          data := data
          extended := extended
          flags := BitVec.ofNat 8 data.length ||| (if extended then 0x80 else 0x00) })))

/-- Bytes after a packet do not change what it decodes to (41_codec.md section DECODE, law (b); rests on D8, log 10). -/
def Obligations.TrailingBytesAreIgnored : Prop :=
  ∀ (c : Command) (canId : CanId) (extended : Bool) (data pkt g : List Byte) (s : State),
    encodeFrame c canId extended data = .ok pkt → exec (.decode (pkt ++ g)) s = exec (.decode pkt) s

/-- Changing the last byte of an encoded packet in any way makes DECODE fail (41_codec.md section DECODE, law (e)). -/
def Obligations.CorruptedLastByteFails : Prop :=
  ∀ (c : Command) (canId : CanId) (extended : Bool) (data front : List Byte) (last x : Byte) (s : State),
    encodeFrame c canId extended data = .ok (front ++ [last]) → x ≠ last →
    ∃ k, exec (.decode (front ++ [x])) s = .next (returning s (.decoded (.err k)))

/-- A single flipped bit that neither changes the unescaped length nor lowers the declared data length makes DECODE fail
(70_reset_and_hazards.md section 3, the theorem of (d); 90_conflicts.md C1 drops the stronger sentence of the source). -/
def Obligations.SingleBitFlipFails : Prop :=
  ∀ (c : Command) (canId : CanId) (extended : Bool) (data pkt : List Byte) (j k : Nat) (s : State),
    encodeFrame c canId extended data = .ok pkt → j < pkt.length → k < 8 →
    (unesc (pkt.set j (byteAt pkt j ^^^ ((1 : Byte) <<< k))).tail).length = (unesc pkt.tail).length →
    declaredLength (unesc pkt.tail) ≤ declaredLength (unesc (pkt.set j (byteAt pkt j ^^^ ((1 : Byte) <<< k))).tail) →
    ∃ kind, exec (.decode (pkt.set j (byteAt pkt j ^^^ ((1 : Byte) <<< k)))) s = .next (returning s (.decoded (.err kind)))

/-- A flip that lowers the declared length can succeed, so the source's "checksum sensitivity" is no theorem: the spec's
example of one bit (70_reset_and_hazards.md section 3, 90_conflicts.md C1). -/
def Obligations.OneFlipCanSucceed : Prop :=
  encodeFrame .canSend 0 false [0x02] = .ok [0xAA, 0x01, 0x01, 0x00, 0x00, 0x00, 0x00, 0x01, 0x02, 0x05] ∧
  decodePacket [0xAA, 0x01, 0x01, 0x00, 0x00, 0x00, 0x00, 0x00, 0x02, 0x05] =
    .ok { command := .canSend, canId := 0, data := [], extended := false, flags := 0x00 }

/-- No delimiter inside an escaped payload, and in the body of a packet 0xAB only in front of 0x8A or 0x8B
(30_encoding.md R51). -/
def Obligations.PacketBodyHasNoDelimiter : Prop :=
  (∀ bs : List Byte, 0xAA ∉ escSeq bs) ∧
  ∀ (c : Command) (canId : CanId) (extended : Bool) (data pkt : List Byte),
    encodeFrame c canId extended data = .ok pkt →
    pkt.head? = some 0xAA ∧ 0xAA ∉ pkt.tail ∧
    ∀ k : Nat, pkt.tail[k]? = some (0xAB : Byte) →
      pkt.tail[k + 1]? = some (0x8A : Byte) ∨ pkt.tail[k + 1]? = some (0x8B : Byte)

/-- The size of a packet: 9 bytes, the data, and one more for each payload byte escaped; from 9 to 43, both reached
(41_codec.md section ENCODE, 30_encoding.md section 1). -/
def Obligations.PacketSize : Prop :=
  (∀ row ∈ commandCodes, ∀ (canId : CanId) (extended : Bool) (data pkt : List Byte),
    encodeFrame row.1 canId extended data = .ok pkt →
    pkt.length = 9 + data.length +
      ((unsummedPayload row.2 canId extended data ++ [csum (unsummedPayload row.2 canId extended data)]).filter
        fun b => b = 0xAA ∨ b = 0xAB).length ∧
    9 ≤ pkt.length ∧ pkt.length ≤ 43) ∧
  (∃ pkt, encodeFrame .heartbeat 0 false [] = .ok pkt ∧ pkt.length = 9) ∧
  (∃ pkt, encodeFrame .canSend 0xAAAAAAAA false (List.replicate 15 0xAA) = .ok pkt ∧ pkt.length = 43)

/-- The failure kinds and every other result on the status output of a machine with a legal configuration
(60_exceptions.md section 1; the numbers are the spec's own choice D14, log 20). -/
def Obligations.ResultsHaveTheirStatusCodes : Prop :=
  ∀ s : State, s.config.legal = true →
    (∀ row ∈ [(Failure.malformedStart, 1), (.truncated, 2), (.versionMismatch, 3), (.unknownCommand, 4),
        (.checksumMismatch, 5), (.frameTooLarge, 6)],
      s.statusOf (.encoded (.err row.1)) = row.2 ∧ s.statusOf (.decoded (.err row.1)) = row.2 ∧
      s.statusOf (.received (.dropped row.1)) = row.2) ∧
    ∀ (bs : List Byte) (b : Byte) (f : Frame) (c : Option (List Byte)),
      s.statusOf (.bytes bs) = 0 ∧ s.statusOf (.sum b) = 0 ∧ s.statusOf (.encoded (.ok bs)) = 0 ∧
      s.statusOf (.decoded (.ok f)) = 0 ∧ s.statusOf (.candidate c) = 0 ∧ s.statusOf (.received .absent) = 0 ∧
      s.statusOf (.received (.frame f)) = 0

/-! ### The commands -/

/-- A command that is sent is encoded with its code; nothing else depends on which command it is (41_codec.md section The
commands; that a row has a form for sending is the model's reading, log 5). -/
def Obligations.SentCommandIsEncoded : Prop :=
  ∀ row ∈ commandRows, ∀ (canId : CanId) (extended : Bool) (data : List Byte) (s : State),
    (data.length ≤ 15 → exec (row.1 (.send canId extended data)) s = .next (returning s (.encoded (.ok
      (0xAA :: escSeq (unsummedPayload row.2 canId extended data ++
        [csum (unsummedPayload row.2 canId extended data)])))))) ∧
    (15 < data.length → exec (row.1 (.send canId extended data)) s =
      .next (returning s (.encoded (.err .frameTooLarge))))

/-- A payload with a command's version and code, as it arrives: `rest` is what follows them. It is Truncated when too short
for a header or for the length it declares, a ChecksumMismatch when its sum is wrong, and otherwise that command's frame
(41_codec.md section The commands; the form is log 5, the checksum's place D8). -/
def Obligations.ArrivedCommandIsDecoded : Prop :=
  ∀ row ∈ commandRows.zip (commandCodes.map Prod.fst), ∀ (rest : List Byte) (s : State),
    (rest.length < 6 ∨ rest.length < 6 + (byteAt rest 4 &&& 0x0F).toNat →
      exec (row.1.1 (.receive rest)) s = .next (returning s (.decoded (.err .truncated)))) ∧
    (6 + (byteAt rest 4 &&& 0x0F).toNat ≤ rest.length →
      csum ([0x01, row.1.2] ++ rest.take (5 + (byteAt rest 4 &&& 0x0F).toNat)) ≠
        byteAt rest (5 + (byteAt rest 4 &&& 0x0F).toNat) →
      exec (row.1.1 (.receive rest)) s = .next (returning s (.decoded (.err .checksumMismatch)))) ∧
    (6 + (byteAt rest 4 &&& 0x0F).toNat ≤ rest.length →
      csum ([0x01, row.1.2] ++ rest.take (5 + (byteAt rest 4 &&& 0x0F).toNat)) =
        byteAt rest (5 + (byteAt rest 4 &&& 0x0F).toNat) →
      exec (row.1.1 (.receive rest)) s = .next (returning s (.decoded (.ok
        { command := row.2
          canId := BitVec.ofNat 32 ((byteAt rest 0).toNat * 2 ^ 24 + (byteAt rest 1).toNat * 2 ^ 16 +
            (byteAt rest 2).toNat * 2 ^ 8 + (byteAt rest 3).toNat)
          data := (rest.drop 5).take (byteAt rest 4 &&& 0x0F).toNat
          extended := decide (byteAt rest 4 &&& 0x80 ≠ 0)
          flags := byteAt rest 4 }))))

/-- The RESET command has code 0x40 and the spec's example packet, and neither sending nor decoding it touches the
reassembler (41_codec.md section The commands). That send_command has extended 0 is the spec's own choice D17 (log 25), and
the two forms of the command row are the model's reading (log 5). -/
def Obligations.ResetCommandDoesNotReset : Prop :=
  (∀ (form : CommandForm) (s : State), ∃ t, exec (.resetCommand form) s = .next t ∧ t.rsm = s.rsm) ∧
  (∀ (raw : List Byte) (s : State), ∃ t, exec (.decode raw) s = .next t ∧ t.rsm = s.rsm) ∧
  (∀ s : State, exec (pseudoSendCommand .reset []) s = .next (returning s (.encoded (.ok
    [0xAA, 0x01, 0x40, 0x00, 0x00, 0x00, 0x00, 0x00, 0x41])))) ∧
  Command.code .reset = 0x40

/-! ### The reassembler -/

/-- FEED of 0xAA while armed with a non-empty buffer emits the candidate, clears the buffer and stays armed; under every legal
configuration one delimiter between two packets is enough (42_reassembler.md R111; that a configuration stays legal is
StepKeepsTheConfiguration). -/
def Obligations.DelimiterClosesACandidate : Prop :=
  ∀ s : State, s.rsm.armed = true → s.rsm.buf ≠ [] →
    (∀ i ∈ [Instr.feedStart, .feed 0xAA], exec i s = .next
      { returning s (.candidate (some (0xAA :: s.rsm.buf))) with rsm := { buf := [], armed := true } }) ∧
    ∀ b : Byte, s.config.legal = true → b ≠ 0xAA → ∃ t, performAll [.feed 0xAA, .feed b, .feed 0xAA] s = .next t ∧
      t.outputs = s.outputs ++ [.candidate (some (0xAA :: s.rsm.buf)), .candidate none, .candidate (some [0xAA, b])]

/-- FEED of 0xAA otherwise arms, clears and emits nothing (42_reassembler.md section FEED; the silent drop of an empty
candidate is the spec's own choice D10, log 15). -/
def Obligations.DelimiterOtherwiseArms : Prop :=
  ∀ s : State, s.rsm.armed = false ∨ s.rsm.buf = [] →
    ∀ i ∈ [Instr.feedStart, .feed 0xAA],
      exec i s = .next { returning s (.candidate none) with rsm := { buf := [], armed := true } }

/-- FEED of another byte while not armed changes nothing and emits nothing; the case ends at the first 0xAA and only RESET
brings it back (42_reassembler.md R114). -/
def Obligations.UnarmedBytesAreDiscarded : Prop :=
  (∀ (b : Byte) (s : State), b ≠ 0xAA → s.rsm.armed = false →
    ∀ i ∈ [Instr.feedData b, .feed b], exec i s = .next (returning s (.candidate none))) ∧
  (∀ s : State, ∃ t, exec (.feed 0xAA) s = .next t ∧ t.rsm.armed = true) ∧
  (∀ (i : Instr) (s t : State), exec i s = .next t → s.rsm.armed = true → t.rsm.armed = false → i = .reset)

/-- FEED of another byte while armed appends it, or drops it when the buffer holds RSM_CAP bytes, and emits nothing; an
unbounded buffer takes every byte (42_reassembler.md section FEED; the capacity and the drop are the spec's own choice D13,
log 9). -/
def Obligations.ArmedBytesAreCollected : Prop :=
  ∀ (b : Byte) (s : State), b ≠ 0xAA → s.rsm.armed = true → ∀ i ∈ [Instr.feedData b, .feed b],
    (s.config.rsmCap = none →
      exec i s = .next { returning s (.candidate none) with rsm := { buf := s.rsm.buf ++ [b], armed := true } }) ∧
    ∀ n : Nat, s.config.rsmCap = some n →
      (s.rsm.buf.length < n →
        exec i s = .next { returning s (.candidate none) with rsm := { buf := s.rsm.buf ++ [b], armed := true } }) ∧
      (n ≤ s.rsm.buf.length → exec i s = .next (returning s (.candidate none)))

/-- FLUSH emits and clears a non-empty buffer and leaves armed alone, and a second FLUSH emits nothing and changes nothing
(42_reassembler.md section FLUSH; clearing and not disarming are the spec's own choice D11, log 15). -/
def Obligations.FlushEmitsOnce : Prop :=
  ∀ s : State,
    (s.rsm.buf ≠ [] → exec .flush s = .next
      { returning s (.candidate (some (0xAA :: s.rsm.buf))) with rsm := { buf := [], armed := s.rsm.armed } }) ∧
    (s.rsm.buf = [] → exec .flush s = .next (returning s (.candidate none))) ∧
    ∃ t u, exec .flush s = .next t ∧ exec .flush t = .next u ∧ u.rsm = t.rsm ∧ u.outputs = t.outputs ++ [.candidate none]

/-- The operation RESET returns to HUNT, whatever was in the buffer is discarded, and no result is returned
(70_reset_and_hazards.md section 1; the operation is the spec's own choice D15, log 16). -/
def Obligations.ResetOperationReturnsToHunt : Prop :=
  ∀ s : State, exec .reset s = .next { s with rsm := { buf := [], armed := false } }

/-- What FEED answers after a delimiter depends only on the bytes since it: nothing for each of them, and at the next
delimiter or FLUSH the candidate of those bytes, cut to the capacity where there is one, whatever was fed before
(42_reassembler.md section Invariants). -/
def Obligations.CandidateIsTheBytesSinceTheDelimiter : Prop :=
  ∀ (r : Rsm) (bs : List Byte) (e : RsmEvent), 0xAA ∉ bs → e = .feed 0xAA ∨ e = .flush →
    (∀ n : Nat, 0 < n →
      (r.event (some n) (.feed 0xAA)).1.run (some n) (bs.map .feed ++ [e]) =
        ({ buf := [], armed := true },
          bs.map (fun _ => none) ++ [if bs = [] then none else some (0xAA :: bs.take n)])) ∧
    (r.event none (.feed 0xAA)).1.run none (bs.map .feed ++ [e]) =
      ({ buf := [], armed := true },
        bs.map (fun _ => none) ++ [if bs = [] then none else some (0xAA :: bs)])

/-- With any capacity of at least 46 every candidate decodes as an unbounded reassembler's would, at every event of every
stream (42_reassembler.md section Invariants, capacity; D13, log 9). -/
def Obligations.CapacityIsInvisibleThroughDecode : Prop :=
  ∀ (n : Nat) (es : List RsmEvent), 46 ≤ n →
    (State.reset.rsm.run (some n) es).2.map (Option.map decodePacket) =
      (State.reset.rsm.run none es).2.map (Option.map decodePacket)

/-- 46 is tight: with 45 bytes some stream decodes differently (42_reassembler.md section Invariants, capacity). -/
def Obligations.CapacityFortyFiveShows : Prop :=
  ∃ es : List RsmEvent,
    (State.reset.rsm.run (some 45) es).2.map (Option.map decodePacket) ≠
      (State.reset.rsm.run none es).2.map (Option.map decodePacket)

/-! ### The receive wiring -/

/-- RXBYTE is FEED followed by DECODE of what it emits (42_reassembler.md section The receive wiring; the composite is the
spec's own choice D24, log 24). -/
def Obligations.RxByteIsFeedThenDecode : Prop :=
  ∀ (b : Byte) (s : State), ∃ r c,
    exec (.feed b) s = .next { returning s (.candidate c) with rsm := r } ∧
    (c = none → exec (.rxByte b) s = .next { returning s (.received .absent) with rsm := r }) ∧
    (∀ raw f, c = some raw → decodePacket raw = .ok f →
      exec (.rxByte b) s = .next { returning s (.received (.frame f)) with rsm := r }) ∧
    (∀ raw k, c = some raw → decodePacket raw = .err k →
      exec (.rxByte b) s = .next { returning s (.received (.dropped k)) with rsm := r })

/-- RXFLUSH is FLUSH followed by DECODE of what it emits (42_reassembler.md section The receive wiring; D24, log 24). -/
def Obligations.RxFlushIsFlushThenDecode : Prop :=
  ∀ s : State, ∃ r c,
    exec .flush s = .next { returning s (.candidate c) with rsm := r } ∧
    (c = none → exec .rxFlush s = .next { returning s (.received .absent) with rsm := r }) ∧
    (∀ raw f, c = some raw → decodePacket raw = .ok f →
      exec .rxFlush s = .next { returning s (.received (.frame f)) with rsm := r }) ∧
    (∀ raw k, c = some raw → decodePacket raw = .err k →
      exec .rxFlush s = .next { returning s (.received (.dropped k)) with rsm := r })

/-- A dropped candidate leaves the reassembler as a delivered frame does: armed with an empty buffer
(60_exceptions.md section 4). -/
def Obligations.DroppedLeavesTheReassemblerReady : Prop :=
  ∀ (i : Instr) (s t : State) (r : RxResult), s.Legal → exec i s = .next t →
    t.outputs = s.outputs ++ [.received r] → r ≠ .absent → t.rsm = { buf := [], armed := true }

/-- Resynchronisation: two packets with noise free of 0xAA between them, and a flush, deliver exactly the two frames, from
any state with an empty buffer, under every legal configuration (42_reassembler.md section Invariants; 90_conflicts.md C3). -/
def Obligations.ReceiverResynchronises : Prop :=
  ∀ (c₁ c₂ : Command) (id₁ id₂ : CanId) (x₁ x₂ : Bool) (d₁ d₂ pkt₁ pkt₂ noise : List Byte) (s : State),
    encodeFrame c₁ id₁ x₁ d₁ = .ok pkt₁ → encodeFrame c₂ id₂ x₂ d₂ = .ok pkt₂ → 0xAA ∉ noise → s.rsm.buf = [] →
    s.config.legal = true →
    ∃ t os, performAll (pseudoRxSeq (pkt₁ ++ noise ++ pkt₂) ++ [.rxFlush]) s = .next t ∧
      t.rsm = { buf := [], armed := true } ∧ t.outputs = s.outputs ++ os ∧
      receivedOf os =
        [.frame { command := c₁, canId := id₁, data := d₁, extended := x₁, flags := flagsByte d₁.length x₁ },
          .frame { command := c₂, canId := id₂, data := d₂, extended := x₂, flags := flagsByte d₂.length x₂ }]

/-! ### Frames and agents -/

/-- Every instruction completes in every state with at most one result, and changes neither the pending requests, nor the
reader, nor the configuration; only RESET returns none (60_exceptions.md section 1, 42_reassembler.md section The receive
wiring; the request list, the history and the field that holds the configuration are the model's own, logs 1, 2 and 9). -/
def Obligations.EveryInstructionCompletes : Prop :=
  ∀ (i : Instr) (s : State), ∃ t, exec i s = .next t ∧ t.requests = s.requests ∧ t.reader = s.reader ∧
    t.config = s.config ∧ ((i = .reset ∧ t.outputs = s.outputs) ∨ (i ≠ .reset ∧ ∃ o, t.outputs = s.outputs ++ [o]))

/-- An operation outside the RX agent's gives the same result in every state and changes nothing but the history
(70_reset_and_hazards.md section 1, 20_memory.md section 4). -/
def Obligations.PureOperationsIgnoreTheState : Prop :=
  ∀ i : Instr, i.usesReassembler = false → ∃ o, ∀ s : State, exec i s = .next (returning s o)

/-- What the RX agent does and answers does not depend on the other operations interleaved with it
(20_memory.md section 7; the agents are the spec's own choice D16). -/
def Obligations.InterleavedCodecOperationsAreInvisible : Prop :=
  ∀ (is : List Instr) (s t : State), performAll is s = .next t →
    ∃ u, performAll (is.filter Instr.usesReassembler) s = .next u ∧ u.rsm = t.rsm ∧
      candidatesOf u.outputs = candidatesOf t.outputs ∧ receivedOf u.outputs = receivedOf t.outputs

/-! ### Requests, decoding and the step -/

/-- Decoding what is encoded gives the instruction back, for every well-formed instruction (30_encoding.md; the layout of
the operation ports is the model's own, log 3). -/
def Obligations.DecodeReadsBackEveryInstruction : Prop :=
  ∀ i : Instr, i.wellFormed = true → decode (encode i).1 (encode i).2 = .instr i

/-- What the decoder reads is well formed, and on every port but that of arrived payloads it is the only reading: the
instruction's words are those bytes (log 6 says what the arrived payloads' port adds). -/
def Obligations.DecodedInstructionsAreWellFormed : Prop :=
  ∀ (port : Port) (bs : List Byte) (i : Instr), decode port bs = .instr i →
    i.wellFormed = true ∧ (port ≠ .rxPayload → encode i = (port, bs))

/-- A few words written out bit by bit decode to the instructions they stand for: the bytes are those of 30_encoding.md
sections 1, 3 and 5. That a table word is read as a payload to be sent, payload byte 0 in its high byte, is the model's
choice (decodeTableWord, log 4); that a command row has an arrived form is the model's reading (log 5), and so is that a lead
takes the byte after it as its operand (log 22). -/
def Obligations.TableWordsDecode : Prop :=
  decode .txPayload [0b00000001, 0b00000001, 0, 0, 0x01, 0x23, 0b00000011, 0x11, 0x22, 0x33] =
    .instr (.canSend (.send 0x123 false [0x11, 0x22, 0x33])) ∧
  decode .txPayload [0b00000001, 0b01000010, 0, 0, 0, 0, 0b10000000] = .instr (.clearFilter (.send 0 true [])) ∧
  decode .rxPayload [0b00000001, 0b00110000, 0, 0, 0, 0, 0b00000001, 0x07, 0x39] =
    .instr (.configGet (.receive [0, 0, 0, 0, 0b00000001, 0x07, 0x39])) ∧
  decode .payloadByte [0b10101011] = .instr (.escEscape 0xAB) ∧
  decode .bodyByte [0b10101011, 0b10001010] = .instr (.unescLead (some 0x8A)) ∧
  decode .streamByte [0b10101010] = .instr .feedStart ∧
  decodeTableWord 16 0b0000000100000010 = some (.heartbeat (.send 0 false []))

/-- The oldest request that decodes to an instruction its context may perform is performed: the step is exec of that
instruction, with the request taken off the list and the context noted as the reader when the instruction is one of the RX
agent's (the request list and the reader are the model's own, logs 1 and 8). -/
def Obligations.StepRunsTheDecodedInstruction : Prop :=
  ∀ (s : State) (q : Request) (rest : List Request) (i : Instr), s.requests = q :: rest →
    decode q.port q.bytes = .instr i →
    (i.usesReassembler = false → step s = exec i { s with requests := rest }) ∧
    (i.usesReassembler = true → s.reader = none ∨ s.reader = some q.context →
      step s = exec i { s with requests := rest, reader := some q.context })

/-- A second context that presents an operation on the reassembler is refused, and so is a command byte outside the eleven
presented to ENCODE (93_implementation_defined.md U1 and U3; logs 7 and 8). -/
def Obligations.StepRefusesAtTheInterface : Prop :=
  (∀ (s : State) (q : Request) (rest : List Request) (i : Instr) (owner : Nat), s.requests = q :: rest →
    decode q.port q.bytes = .instr i → i.usesReassembler = true → s.reader = some owner → owner ≠ q.context →
    step s = .refused (.secondReader owner q.context)) ∧
  (∀ (s : State) (ctx : Nat) (rest : List Request) (b i0 i1 i2 i3 e : Byte) (data : List Byte),
    b ∉ commandCodes.map Prod.snd →
    s.requests = { context := ctx, port := .encode, bytes := b :: i0 :: i1 :: i2 :: i3 :: e :: data } :: rest →
    step s = .refused (.commandOutsideSet b))

/-- With nothing presented the block holds its state (60_exceptions.md section 7; the idle step is the model's own, log 1). -/
def Obligations.IdleStepHoldsTheState : Prop :=
  ∀ s : State, s.requests = [] → step s = .next s

/-- A table word presented as the next operation is what the next step runs (logs 1 and 4). -/
def Obligations.FetchWordRunsTheTableWord : Prop :=
  ∀ (s : State) (nbits w : Nat) (i : Instr), decodeTableWord nbits w = some i →
    step (s.withFetchWord nbits w) =
      exec i { s with reader := if i.usesReassembler then some (s.reader.getD 0) else s.reader }

/-- A run of the machine over the requests of one reader is those operations performed one after another: as many steps as
requests give the reassembler and the history that performing the instructions gives, with nothing left pending
(20_memory.md section 7; logs 1 and 8). -/
def Obligations.RunPerformsTheRequestsInOrder : Prop :=
  ∀ (ctx : Nat) (is : List Instr) (s : State), (∀ i ∈ is, i.wellFormed = true) →
    s.requests = is.map (fun i => { context := ctx, port := (encode i).1, bytes := (encode i).2 }) →
    s.reader = none ∨ s.reader = some ctx →
    ∃ t u : State, Sys2Proof.core.run is.length s = .next t ∧ performAll is s = .next u ∧
      t.rsm = u.rsm ∧ t.outputs = u.outputs ∧ t.requests = []

/-! ### The configuration -/

/-- The machine after reset has the values this spec takes for its parameters, and they are legal; a capacity is legal exactly
when it is at least 46 or unbounded (00_scope.md section 4; the values are the spec's own choices D8, D13 and D14, logs 9, 10
and 20; that a field holds them is the model's, log 9). -/
def Obligations.ResetTakesTheSpecConfiguration : Prop :=
  State.reset.config =
    { rsmCap := some 64
      csumPos := .atDlc
      status :=
        { ok := 0, malformedStart := 1, truncated := 2, versionMismatch := 3, unknownCommand := 4, checksumMismatch := 5,
          frameTooLarge := 6 }
      maxPayload := 23
      maxPacket := 43 } ∧
  State.reset.config.legal = true ∧
  (∀ n : Nat, Config.legal { State.reset.config with rsmCap := some n } = true ↔ 46 ≤ n) ∧
  Config.legal { State.reset.config with rsmCap := none } = true

/-- No step changes the configuration: the parameters are hardwired (00_scope.md section 4, 10_state.md section 9; the field
that holds them is the model's own, log 9). -/
def Obligations.StepKeepsTheConfiguration : Prop :=
  ∀ s t : State, step s = .next t → t.config = s.config

/-- The derived parameters bound what ENCODE builds: no payload is longer than MAX_PAYLOAD and no packet longer than
MAX_PACKET (00_scope.md section 4, 41_codec.md section ENCODE). -/
def Obligations.EncodeRespectsTheConfiguredMaxima : Prop :=
  ∀ (cfg : Config) (c : Command) (canId : CanId) (extended : Bool) (data pkt : List Byte), cfg.legal = true →
    encodeFrame c canId extended data = .ok pkt →
    (unesc pkt.tail).length ≤ cfg.maxPayload ∧ pkt.length ≤ cfg.maxPacket

/-- Two machines built with legal configurations and given the same operations after reset return the same results to a host
that decodes every candidate, and end in the same state of the state machine: the capacity is invisible through DECODE
(42_reassembler.md section Invariants, capacity; 93_implementation_defined.md U9; D13, log 9). -/
def Obligations.LegalConfigurationsAnswerAlike : Prop :=
  ∀ (c₁ c₂ : Config) (is : List Instr), c₁.legal = true → c₂.legal = true →
    ∃ t₁ t₂ : State, performAll is (State.resetWith c₁) = .next t₁ ∧ performAll is (State.resetWith c₂) = .next t₂ ∧
      t₁.outputs.map throughDecode = t₂.outputs.map throughDecode ∧ t₁.rsm.phase = t₂.rsm.phase
end

