-- ==== Sys2Proof/Laws/Primitives.lean ====
section
/-! SUPPORT. What the escape and checksum primitives do on each shape of input, said once. -/

namespace Sys2Proof.Machine

theorem esc_of_special {b : Byte} (h : b = START_BYTE ∨ b = ESC_BYTE) : esc b = [ESC_BYTE, b ^^^ ESC_XOR] := if_pos h

theorem esc_of_plain {b : Byte} (h₁ : b ≠ START_BYTE) (h₂ : b ≠ ESC_BYTE) : esc b = [b] := if_neg (by simp [h₁, h₂])

@[simp] theorem escSeq_nil : escSeq [] = [] := rfl
@[simp] theorem escSeq_cons (b : Byte) (s : List Byte) : escSeq (b :: s) = esc b ++ escSeq s := rfl

@[simp] theorem unesc_nil : unesc [] = [] := rfl
@[simp] theorem unesc_lead_last : unesc [ESC_BYTE] = [] := rfl

@[simp] theorem unesc_lead (x : Byte) (s : List Byte) : unesc (ESC_BYTE :: x :: s) = (x ^^^ ESC_XOR) :: unesc s := by
  simp [unesc]

theorem unesc_plain {b : Byte} (h : b ≠ ESC_BYTE) (s : List Byte) : unesc (b :: s) = b :: unesc s := by
  cases s <;> simp [unesc, h]

/-- One emitted byte at a time: what UNESC yields starts with what ESC escaped. -/
theorem unesc_esc (b : Byte) (s : List Byte) : unesc (esc b ++ s) = b :: unesc s := by
  by_cases h : b = START_BYTE ∨ b = ESC_BYTE
  · rw [esc_of_special h]
    obtain rfl | rfl := h <;> exact unesc_lead _ s
  · rw [not_or] at h
    rw [esc_of_plain h.1 h.2]
    exact unesc_plain h.2 s

@[simp] theorem csum_nil : csum [] = 0x00 := rfl

theorem csumFrom_eq_add (acc : Byte) (s : List Byte) : csumFrom acc s = acc + csum s := by
  induction s generalizing acc with
  | nil => simp [csumFrom]
  | cons b s ih =>
    rw [csum, csumFrom, csumFrom, ih (acc + b), ih (0x00 + b)]
    simp [BitVec.add_assoc]

@[simp] theorem csum_cons (b : Byte) (s : List Byte) : csum (b :: s) = b + csum s := by
  rw [csum, csumFrom, csumFrom_eq_add]
  simp

/-- The streaming UNESC takes one byte as its rule says. -/
theorem unescStream_cons (pending : Bool) (b : Byte) (s : List Byte) :
    unescStream pending (b :: s) =
      if pending then (b ^^^ ESC_XOR) :: unescStream false s
      else if b = ESC_BYTE then unescStream true s else b :: unescStream false s := by
  cases pending
  · by_cases h : b = ESC_BYTE <;> simp [unescStream, unescStep, h]
  · simp [unescStream, unescStep]

end Sys2Proof.Machine
end

