-- ==== Sys2Proof/Laws/Codec.lean ====
section
/-! SUPPORT. What the fields, ENCODE and DECODE can answer, said once. -/

namespace Sys2Proof

theorem cmdOf_code (c : Command) : cmdOf c.code = some c := by cases c <;> rfl

theorem code_of_cmdOf {b : Byte} {c : Command} (h : cmdOf b = some c) : c.code = b := by
  have := List.find?_some h
  simpa using this

theorem Command.code_ne_special (c : Command) : c.code ≠ START_BYTE ∧ c.code ≠ ESC_BYTE := by
  cases c <;> decide

namespace Machine

theorem be32_byteK (v : CanId) : be32 (byteK v 0) (byteK v 1) (byteK v 2) (byteK v 3) = v := by
  apply BitVec.eq_of_toNat_eq
  have h := v.isLt
  simp only [be32, byteK, BitVec.toNat_ofNat, BitVec.toNat_setWidth, BitVec.toNat_ushiftRight,
    Nat.shiftRight_eq_div_pow]
  omega

@[simp] theorem checksumIndex_atDlc (dlc : Nat) : checksumIndex .atDlc dlc = HDR_LEN + dlc := rfl

@[simp] theorem taken_rsmCap : Config.taken.rsmCap = some 64 := rfl

theorem taken_legal : Config.taken.legal = true := by decide

/-- A capacity is legal exactly when every bound it sets is at least 46. -/
theorem legalCap_iff (cap : Option Nat) : legalCap cap = true ↔ ∀ n, cap = some n → MIN_CAP ≤ n := by
  cases cap <;> simp [legalCap]

/-- Everything a legal configuration fixes. -/
theorem config_legal_iff (c : Config) :
    c.legal = true ↔ legalCap c.rsmCap = true ∧ c.csumPos = .atDlc ∧ c.status = .fixed ∧ c.maxPayload = MAX_PAYLOAD ∧
      c.maxPacket = MAX_PACKET := by
  simp [Config.legal, and_assoc]

/-- DECODE is the same in every configuration, since `CSUM_POS` has one value. -/
@[simp] theorem decodePacketAt_eq (pos : CsumPos) (raw : List Byte) : decodePacketAt pos raw = decodePacket raw := by
  cases pos; rfl

@[simp] theorem header_length (code : Byte) (canId : CanId) (extended : Bool) (data : List Byte) :
    (header code canId extended data).length = HDR_LEN + data.length := by
  simp [header, HDR_LEN]; omega

theorem encodeFrame_cases (c : Command) (canId : CanId) (extended : Bool) (data : List Byte) :
    (MAX_DATA < data.length ∧ encodeFrame c canId extended data = .err .frameTooLarge) ∨
    (data.length ≤ MAX_DATA ∧
      encodeFrame c canId extended data = .ok (packetOf (encodePayload c canId extended data))) := by
  unfold encodeFrame
  split
  · exact .inl ⟨‹_›, rfl⟩
  · exact .inr ⟨by omega, rfl⟩

/-- Everything DECODE's last two checks can answer. -/
theorem decodeBody_cases (c : Command) (p : List Byte) :
    (p.length < HDR_LEN + flagsDlc (flagsField p) + 1 ∧ decodeBody .atDlc c p = .err .truncated) ∨
    (HDR_LEN + flagsDlc (flagsField p) + 1 ≤ p.length ∧
      csum (p.take (HDR_LEN + flagsDlc (flagsField p))) ≠ payloadAt p (HDR_LEN + flagsDlc (flagsField p)) ∧
      decodeBody .atDlc c p = .err .checksumMismatch) ∨
    (HDR_LEN + flagsDlc (flagsField p) + 1 ≤ p.length ∧
      csum (p.take (HDR_LEN + flagsDlc (flagsField p))) = payloadAt p (HDR_LEN + flagsDlc (flagsField p)) ∧
      decodeBody .atDlc c p = .ok
        { command := c
          canId := canIdField p
          data := dataField p (flagsDlc (flagsField p))
          extended := flagsExtended (flagsField p)
          flags := flagsField p }) := by
  by_cases h₁ : p.length < HDR_LEN + flagsDlc (flagsField p) + 1
  · exact .inl ⟨h₁, if_pos h₁⟩
  · by_cases h₂ : csum (p.take (HDR_LEN + flagsDlc (flagsField p))) = payloadAt p (HDR_LEN + flagsDlc (flagsField p))
    · exact .inr (.inr ⟨by omega, h₂, (if_neg h₁).trans (if_neg (by simpa using h₂))⟩)
    · exact .inr (.inl ⟨by omega, h₂, (if_neg h₁).trans (if_pos h₂)⟩)

/-- Everything DECODE's checks (2) to (6) can answer. -/
theorem decodePayload_cases (p : List Byte) :
    (p.length < MIN_PAYLOAD ∧ decodePayload .atDlc p = .err .truncated) ∨
    (MIN_PAYLOAD ≤ p.length ∧ versionField p ≠ VERSION ∧ decodePayload .atDlc p = .err .versionMismatch) ∨
    (MIN_PAYLOAD ≤ p.length ∧ versionField p = VERSION ∧ cmdOf (commandField p) = none ∧
      decodePayload .atDlc p = .err .unknownCommand) ∨
    (∃ c, MIN_PAYLOAD ≤ p.length ∧ versionField p = VERSION ∧ cmdOf (commandField p) = some c ∧
      decodePayload .atDlc p = decodeBody .atDlc c p) := by
  unfold decodePayload
  split
  · exact .inl ⟨‹_›, rfl⟩
  · split
    · exact .inr (.inl ⟨by omega, ‹_›, rfl⟩)
    · rename_i hv
      have hv : versionField p = VERSION := by simpa using hv
      cases hc : cmdOf (commandField p) with
      | none => exact .inr (.inr (.inl ⟨by omega, hv, rfl, rfl⟩))
      | some c => exact .inr (.inr (.inr ⟨c, by omega, hv, rfl, rfl⟩))

@[simp] theorem decodePacket_nil : decodePacket [] = .err .malformedStart := rfl

theorem decodePacket_bad_start {b : Byte} (h : b ≠ START_BYTE) (body : List Byte) :
    decodePacket (b :: body) = .err .malformedStart := by
  simp [decodePacket, decodePacketAt, h]

@[simp] theorem decodePacket_start (body : List Byte) :
    decodePacket (START_BYTE :: body) = decodePayload .atDlc (unesc body) := by
  simp [decodePacket, decodePacketAt]

/-- What the codec does with a command in each form. -/
theorem carryCommand_cases (c : Command) (form : CommandForm) (s : State) :
    (∃ canId extended data, form = .send canId extended data ∧
      carryCommand c form s = s.emit (.encoded (encodeFrame c canId extended data))) ∨
    (∃ rest, form = .receive rest ∧
      carryCommand c form s = s.emit (.decoded (decodePacket (packetOf (VERSION :: c.code :: rest))))) := by
  cases form with
  | send canId extended data => exact .inl ⟨canId, extended, data, rfl, rfl⟩
  | receive rest => exact .inr ⟨rest, rfl, by simp [carryCommand]⟩

end Machine

end Sys2Proof
end

