-- ==== Sys2Proof/Laws/PerInstr.lean ====
section
/-! SUPPORT. The family FixedBits: the words of every well-formed instruction carry the fixed bits that its row of
spec/opcode_table.json gives (match and mask). -/

namespace Sys2Proof.Laws.FixedBits

/-- A row's fixed bits: whether its word is the 16 bits of payload bytes 0 and 1, the mask and the match. -/
structure Row where
  wide : Bool
  mask : Nat
  pattern : Nat
deriving DecidableEq, Repr

/-- The row of each instruction that has fixed bits in spec/opcode_table.json. -/
def rowOf : Instr → Option Row
  | .canSend _ => some ⟨true, 0xFFFF, 0x0101⟩
  | .heartbeat _ => some ⟨true, 0xFFFF, 0x0102⟩
  | .ack _ => some ⟨true, 0xFFFF, 0x0103⟩
  | .nack _ => some ⟨true, 0xFFFF, 0x0104⟩
  | .deviceInfo _ => some ⟨true, 0xFFFF, 0x0110⟩
  | .ping _ => some ⟨true, 0xFFFF, 0x0120⟩
  | .configGet _ => some ⟨true, 0xFFFF, 0x0130⟩
  | .configSet _ => some ⟨true, 0xFFFF, 0x0131⟩
  | .resetCommand _ => some ⟨true, 0xFFFF, 0x0140⟩
  | .setFilter _ => some ⟨true, 0xFFFF, 0x0141⟩
  | .clearFilter _ => some ⟨true, 0xFFFF, 0x0142⟩
  | .escEscape _ => some ⟨false, 0xFE, 0xAA⟩
  | .unescLead _ => some ⟨false, 0xFF, 0xAB⟩
  | .feedStart => some ⟨false, 0xFF, 0xAA⟩
  | .escPass _ => none
  | .unescPass _ => none
  | .feedData _ => none
  | .esc _ => none
  | .escSeq _ => none
  | .unesc _ => none
  | .csum _ => none
  | .encode _ _ _ _ => none
  | .decode _ => none
  | .feed _ => none
  | .flush => none
  | .rxByte _ => none
  | .rxFlush => none
  | .reset => none

/-- The word the table compares: payload byte 0 in the high byte and payload byte 1 in the low one, or the one byte. -/
def wordOf (wide : Bool) (bs : List Byte) : Nat :=
  if wide then (bs.getD 0 0).toNat * 256 + (bs.getD 1 0).toNat else (bs.getD 0 0).toNat

/-- A well-formed instruction's words match its row. -/
def Statement (i : Instr) : Prop :=
  i.wellFormed = true → ∀ row, rowOf i = some row → wordOf row.wide (Sys2Proof.encode i).2 &&& row.mask = row.pattern

/-- A command's payload begins with the version and its code, in both forms. -/
theorem command_word (c : Command) (form : CommandForm) :
    wordOf true (encodeCommand c form).2 = 0x0100 + c.code.toNat := by
  cases form <;> show VERSION.toNat * 256 + c.code.toNat = _ <;> rfl

theorem canSend (form : CommandForm) : Statement (.canSend form) := fun _ _ h => by
  cases h; exact congrArg (· &&& 0xFFFF) (command_word .canSend form)

theorem heartbeat (form : CommandForm) : Statement (.heartbeat form) := fun _ _ h => by
  cases h; exact congrArg (· &&& 0xFFFF) (command_word .heartbeat form)

theorem ack (form : CommandForm) : Statement (.ack form) := fun _ _ h => by
  cases h; exact congrArg (· &&& 0xFFFF) (command_word .ack form)

theorem nack (form : CommandForm) : Statement (.nack form) := fun _ _ h => by
  cases h; exact congrArg (· &&& 0xFFFF) (command_word .nack form)

theorem deviceInfo (form : CommandForm) : Statement (.deviceInfo form) := fun _ _ h => by
  cases h; exact congrArg (· &&& 0xFFFF) (command_word .deviceInfo form)

theorem ping (form : CommandForm) : Statement (.ping form) := fun _ _ h => by
  cases h; exact congrArg (· &&& 0xFFFF) (command_word .ping form)

theorem configGet (form : CommandForm) : Statement (.configGet form) := fun _ _ h => by
  cases h; exact congrArg (· &&& 0xFFFF) (command_word .configGet form)

theorem configSet (form : CommandForm) : Statement (.configSet form) := fun _ _ h => by
  cases h; exact congrArg (· &&& 0xFFFF) (command_word .configSet form)

theorem resetCommand (form : CommandForm) : Statement (.resetCommand form) := fun _ _ h => by
  cases h; exact congrArg (· &&& 0xFFFF) (command_word .reset form)

theorem setFilter (form : CommandForm) : Statement (.setFilter form) := fun _ _ h => by
  cases h; exact congrArg (· &&& 0xFFFF) (command_word .setFilter form)

theorem clearFilter (form : CommandForm) : Statement (.clearFilter form) := fun _ _ h => by
  cases h; exact congrArg (· &&& 0xFFFF) (command_word .clearFilter form)

theorem escEscape (b : Byte) : Statement (.escEscape b) := fun hw _ h => by
  cases h
  obtain rfl | rfl := of_decide_eq_true hw <;> rfl

theorem unescLead (x : Option Byte) : Statement (.unescLead x) := fun _ _ h => by
  cases h; cases x <;> (show ESC_BYTE.toNat &&& 0xFF = 0xAB; decide)

theorem feedStart : Statement .feedStart := fun _ _ h => by cases h; rfl

theorem escPass (b : Byte) : Statement (.escPass b) := fun _ _ h => by cases h

theorem unescPass (b : Byte) : Statement (.unescPass b) := fun _ _ h => by cases h

theorem feedData (b : Byte) : Statement (.feedData b) := fun _ _ h => by cases h

theorem esc (b : Byte) : Statement (.esc b) := fun _ _ h => by cases h

theorem escSeq (s : List Byte) : Statement (.escSeq s) := fun _ _ h => by cases h

theorem unesc (s : List Byte) : Statement (.unesc s) := fun _ _ h => by cases h

theorem csum (s : List Byte) : Statement (.csum s) := fun _ _ h => by cases h

theorem encode (c : Command) (i : CanId) (e : Bool) (d : List Byte) : Statement (.encode c i e d) := fun _ _ h => by cases h

theorem decode (r : List Byte) : Statement (.decode r) := fun _ _ h => by cases h

theorem feed (b : Byte) : Statement (.feed b) := fun _ _ h => by cases h

theorem flush : Statement .flush := fun _ _ h => by cases h

theorem rxByte (b : Byte) : Statement (.rxByte b) := fun _ _ h => by cases h

theorem rxFlush : Statement .rxFlush := fun _ _ h => by cases h

theorem reset : Statement .reset := fun _ _ h => by cases h

end Sys2Proof.Laws.FixedBits
end

