-- ==== Sys2Proof/Laws/Reassembler.lean ====
section
/-! SUPPORT. What the reassembler can do at an event, said once, and that every event keeps its storage legal. -/

namespace Sys2Proof.Machine

/-- Everything FEED of a delimiter can do. -/
theorem Rsm.feedStart_cases (r : Rsm) :
    (r.armed = true ∧ r.buf ≠ [] ∧ r.feedStart = ({ buf := [], armed := true }, some (START_BYTE :: r.buf))) ∨
    ((r.armed = false ∨ r.buf = []) ∧ r.feedStart = ({ buf := [], armed := true }, none)) := by
  obtain ⟨buf, armed⟩ := r
  cases buf <;> cases armed <;> simp [Rsm.feedStart, candidateOf]

/-- Everything FEED of another byte can do. -/
theorem Rsm.feedData_cases (cap : Option Nat) (r : Rsm) (b : Byte) :
    (r.armed = true ∧ hasRoom cap r.buf.length = true ∧
      r.feedData cap b = ({ buf := r.buf ++ [b], armed := true }, none)) ∨
    ((r.armed = false ∨ hasRoom cap r.buf.length = false) ∧ r.feedData cap b = (r, none)) := by
  obtain ⟨buf, armed⟩ := r
  cases armed
  · exact .inr ⟨.inl rfl, rfl⟩
  · by_cases h : hasRoom cap buf.length = true
    · exact .inl ⟨rfl, h, by simp [Rsm.feedData, h]⟩
    · rw [Bool.not_eq_true] at h
      exact .inr ⟨.inr h, by simp [Rsm.feedData, h]⟩

theorem Rsm.feed_start (cap : Option Nat) (r : Rsm) : r.feed cap START_BYTE = r.feedStart := if_pos rfl

theorem Rsm.feed_data (cap : Option Nat) (r : Rsm) {b : Byte} (h : b ≠ START_BYTE) :
    r.feed cap b = r.feedData cap b := if_neg h

/-- Everything FLUSH can do. -/
theorem Rsm.flush_cases (r : Rsm) :
    (r.buf ≠ [] ∧ r.flush = ({ r with buf := [] }, some (START_BYTE :: r.buf))) ∨
    (r.buf = [] ∧ r.flush = (r, none)) := by
  obtain ⟨buf, armed⟩ := r
  cases buf <;> simp [Rsm.flush, candidateOf]

theorem withinCap_append {cap : Option Nat} {n : Nat} (h : hasRoom cap n = true) : withinCap cap (n + 1) = true := by
  cases cap with
  | none => rfl
  | some m => simp [hasRoom] at h; simp [withinCap]; omega

theorem withinCap_zero (cap : Option Nat) : withinCap cap 0 = true := by cases cap <;> rfl

/-- A cleared buffer is legal whatever the capacity. -/
theorem Rsm.legal_empty (cap : Option Nat) (armed : Bool) : Rsm.Legal cap { buf := [], armed := armed } :=
  ⟨fun h => absurd rfl h, by simp, withinCap_zero cap⟩

/-- Every event keeps the storage legal. -/
theorem Rsm.event_keeps_legal {cap : Option Nat} {r : Rsm} (h : r.Legal cap) (e : RsmEvent) :
    (r.event cap e).1.Legal cap := by
  cases e with
  | feed b =>
    by_cases hb : b = START_BYTE
    · subst hb
      simp only [Rsm.event, Rsm.feed_start]
      obtain ⟨-, -, he⟩ | ⟨-, he⟩ := r.feedStart_cases <;> rw [he] <;> exact Rsm.legal_empty cap true
    · simp only [Rsm.event, Rsm.feed_data cap r hb]
      obtain ⟨-, hroom, he⟩ | ⟨-, he⟩ := r.feedData_cases cap b <;> rw [he]
      · refine ⟨fun _ => rfl, ?_, ?_⟩
        · simpa [h.2.1] using Ne.symm hb
        · simpa using withinCap_append hroom
      · exact h
  | flush =>
    simp only [Rsm.event]
    obtain ⟨-, he⟩ | ⟨-, he⟩ := r.flush_cases <;> rw [he]
    · exact Rsm.legal_empty cap r.armed
    · exact h
  | reset => exact Rsm.legal_empty cap false

end Sys2Proof.Machine
end

