-- ==== Sys2Proof/Laws/State.lean ====
section
/-! SUPPORT. One lemma per field per update of the state, so that no later proof unfolds a record update. -/

namespace Sys2Proof.Machine

variable (s : State) (o : Output) (r : Rsm) (c : Nat) (i : Instr) (rest : List Request) (port : Port) (bs : List Byte)
  (x : Rsm × Option (List Byte))

@[simp] theorem State.emit_rsm : (s.emit o).rsm = s.rsm := rfl
@[simp] theorem State.emit_requests : (s.emit o).requests = s.requests := rfl
@[simp] theorem State.emit_outputs : (s.emit o).outputs = s.outputs ++ [o] := rfl
@[simp] theorem State.emit_reader : (s.emit o).reader = s.reader := rfl
@[simp] theorem State.emit_config : (s.emit o).config = s.config := rfl

@[simp] theorem State.setRsm_rsm : (s.setRsm r).rsm = r := rfl
@[simp] theorem State.setRsm_requests : (s.setRsm r).requests = s.requests := rfl
@[simp] theorem State.setRsm_outputs : (s.setRsm r).outputs = s.outputs := rfl
@[simp] theorem State.setRsm_reader : (s.setRsm r).reader = s.reader := rfl
@[simp] theorem State.setRsm_config : (s.setRsm r).config = s.config := rfl

@[simp] theorem returnCandidate_rsm : (returnCandidate s x).rsm = x.1 := rfl
@[simp] theorem returnCandidate_requests : (returnCandidate s x).requests = s.requests := rfl
@[simp] theorem returnCandidate_outputs : (returnCandidate s x).outputs = s.outputs ++ [.candidate x.2] := rfl
@[simp] theorem returnCandidate_reader : (returnCandidate s x).reader = s.reader := rfl
@[simp] theorem returnCandidate_config : (returnCandidate s x).config = s.config := rfl

@[simp] theorem returnReceived_rsm : (returnReceived s x).rsm = x.1 := rfl
@[simp] theorem returnReceived_requests : (returnReceived s x).requests = s.requests := rfl
@[simp] theorem returnReceived_outputs :
    (returnReceived s x).outputs = s.outputs ++ [.received (receiveCandidate s.config.csumPos x.2)] := rfl
@[simp] theorem returnReceived_reader : (returnReceived s x).reader = s.reader := rfl
@[simp] theorem returnReceived_config : (returnReceived s x).config = s.config := rfl

@[simp] theorem State.take_rsm : (s.take c i rest).rsm = s.rsm := rfl
@[simp] theorem State.take_requests : (s.take c i rest).requests = rest := rfl
@[simp] theorem State.take_outputs : (s.take c i rest).outputs = s.outputs := rfl
@[simp] theorem State.take_reader :
    (s.take c i rest).reader = if i.usesReassembler then some c else s.reader := rfl
@[simp] theorem State.take_config : (s.take c i rest).config = s.config := rfl

@[simp] theorem State.present_rsm : (s.present port bs).rsm = s.rsm := rfl
@[simp] theorem State.present_requests :
    (s.present port bs).requests = { context := s.reader.getD 0, port := port, bytes := bs } :: s.requests := rfl
@[simp] theorem State.present_outputs : (s.present port bs).outputs = s.outputs := rfl
@[simp] theorem State.present_reader : (s.present port bs).reader = s.reader := rfl
@[simp] theorem State.present_config : (s.present port bs).config = s.config := rfl

variable (cfg : Config)

@[simp] theorem State.resetWith_rsm : (State.resetWith cfg).rsm = { buf := [], armed := false } := rfl
@[simp] theorem State.resetWith_requests : (State.resetWith cfg).requests = [] := rfl
@[simp] theorem State.resetWith_outputs : (State.resetWith cfg).outputs = [] := rfl
@[simp] theorem State.resetWith_reader : (State.resetWith cfg).reader = none := rfl
@[simp] theorem State.resetWith_config : (State.resetWith cfg).config = cfg := rfl

theorem State.resetWith_taken : State.resetWith Config.taken = State.reset := rfl

end Sys2Proof.Machine
end

