-- ==== Sys2Proof/Laws/Step.lean ====
section
/-! SUPPORT. What a step and a meaning can do, said once. -/

namespace Sys2Proof.Machine

/-- Everything DECODE of a candidate can be returned as. -/
theorem receiveCandidate_cases (pos : CsumPos) (c : Option (List Byte)) :
    (c = none ∧ receiveCandidate pos c = .absent) ∨
    (∃ raw f, c = some raw ∧ decodePacket raw = .ok f ∧ receiveCandidate pos c = .frame f) ∨
    (∃ raw k, c = some raw ∧ decodePacket raw = .err k ∧ receiveCandidate pos c = .dropped k) := by
  cases c with
  | none => exact .inl ⟨rfl, rfl⟩
  | some raw =>
    cases h : decodePacket raw with
    | ok f => exact .inr (.inl ⟨raw, f, rfl, h, by simp [receiveCandidate, h]⟩)
    | err k => exact .inr (.inr ⟨raw, k, rfl, h, by simp [receiveCandidate, h]⟩)

/-- What a candidate is returned as does not depend on the configuration, since `CSUM_POS` has one value. -/
theorem receiveCandidate_atDlc (pos : CsumPos) (c : Option (List Byte)) :
    receiveCandidate pos c = receiveCandidate .atDlc c := by
  cases pos; rfl

@[simp] theorem throughDecode_candidate (c : Option (List Byte)) :
    throughDecode (.candidate c) = .received (receiveCandidate .atDlc c) := rfl

@[simp] theorem throughDecode_received (r : RxResult) : throughDecode (.received r) = .received r := rfl

@[simp] theorem performAll_nil (s : State) : performAll [] s = .next s := rfl

theorem performAll_cons {i : Instr} {s t : State} (h : exec i s = .next t) (is : List Instr) :
    performAll (i :: is) s = performAll is t := by
  simp [performAll, h]

@[simp] theorem run_nil (cap : Option Nat) (r : Rsm) : r.run cap [] = (r, []) := rfl

@[simp] theorem run_cons (cap : Option Nat) (r : Rsm) (e : RsmEvent) (es : List RsmEvent) :
    r.run cap (e :: es) =
      (((r.event cap e).1.run cap es).1, (r.event cap e).2 :: ((r.event cap e).1.run cap es).2) := rfl

/-- A request is admitted exactly when its operation touches no state, or there is no reader, or it is the reader's. -/
theorem State.admits_iff (s : State) (c : Nat) (i : Instr) :
    s.admits c i = true ↔ i.usesReassembler = false ∨ s.reader = none ∨ s.reader = some c := by
  simp [State.admits, or_assoc]

/-- Everything a step that answers a next state can have done. -/
theorem performNext_next {run : Instr → State → Host.Outcome State Fault Refusal} {s t : State}
    (h : performNext run s = .next t) :
    (s.requests = [] ∧ t = s) ∨
    (∃ q rest i, s.requests = q :: rest ∧ decode q.port q.bytes = .instr i ∧ s.admits q.context i = true ∧
      run i (s.take q.context i rest) = .next t) := by
  unfold performNext at h
  split at h
  · exact .inl ⟨‹_›, by cases h; rfl⟩
  · rename_i q rest hq
    split at h
    · cases h
    · rename_i i hi
      split at h
      · exact .inr ⟨q, rest, i, hq, hi, ‹_›, h⟩
      · cases h

/-- Everything an instruction can do: it returns one result and leaves the reassembler alone, or it is one event at the
reassembler whose candidate is returned raw or decoded, or it is RESET. -/
theorem exec_cases (i : Instr) (s : State) :
    (∃ o, i.usesReassembler = false ∧ exec i s = .next (s.emit o)) ∨
    (∃ e, i.usesReassembler = true ∧ i ≠ .reset ∧
      exec i s = .next (returnCandidate s (s.rsm.event s.config.rsmCap e))) ∨
    (∃ e, i.usesReassembler = true ∧ i ≠ .reset ∧
      exec i s = .next (returnReceived s (s.rsm.event s.config.rsmCap e))) ∨
    (i = .reset ∧ exec i s = .next (s.setRsm (s.rsm.event s.config.rsmCap .reset).1)) := by
  have carry (c : Command) (form : CommandForm) : ∃ o, carryCommand c form s = s.emit o := by
    obtain ⟨_, _, _, -, h⟩ | ⟨_, -, h⟩ := carryCommand_cases c form s <;> exact ⟨_, h⟩
  cases i with
  | canSend f => obtain ⟨o, h⟩ := carry .canSend f; exact .inl ⟨o, rfl, congrArg _ h⟩
  | heartbeat f => obtain ⟨o, h⟩ := carry .heartbeat f; exact .inl ⟨o, rfl, congrArg _ h⟩
  | ack f => obtain ⟨o, h⟩ := carry .ack f; exact .inl ⟨o, rfl, congrArg _ h⟩
  | nack f => obtain ⟨o, h⟩ := carry .nack f; exact .inl ⟨o, rfl, congrArg _ h⟩
  | deviceInfo f => obtain ⟨o, h⟩ := carry .deviceInfo f; exact .inl ⟨o, rfl, congrArg _ h⟩
  | ping f => obtain ⟨o, h⟩ := carry .ping f; exact .inl ⟨o, rfl, congrArg _ h⟩
  | configGet f => obtain ⟨o, h⟩ := carry .configGet f; exact .inl ⟨o, rfl, congrArg _ h⟩
  | configSet f => obtain ⟨o, h⟩ := carry .configSet f; exact .inl ⟨o, rfl, congrArg _ h⟩
  | resetCommand f => obtain ⟨o, h⟩ := carry .reset f; exact .inl ⟨o, rfl, congrArg _ h⟩
  | setFilter f => obtain ⟨o, h⟩ := carry .setFilter f; exact .inl ⟨o, rfl, congrArg _ h⟩
  | clearFilter f => obtain ⟨o, h⟩ := carry .clearFilter f; exact .inl ⟨o, rfl, congrArg _ h⟩
  | escEscape b => exact .inl ⟨_, rfl, rfl⟩
  | escPass b => exact .inl ⟨_, rfl, rfl⟩
  | unescLead x => cases x <;> exact .inl ⟨_, rfl, rfl⟩
  | unescPass b => exact .inl ⟨_, rfl, rfl⟩
  | feedStart => exact .inr (.inl ⟨.feed START_BYTE, rfl, by simp, by rw [Rsm.event, Rsm.feed_start]; rfl⟩)
  | feedData b => exact .inr (.inl ⟨.feed b, rfl, by simp, rfl⟩)
  | esc b => exact .inl ⟨_, rfl, rfl⟩
  | escSeq bs => exact .inl ⟨_, rfl, rfl⟩
  | unesc bs => exact .inl ⟨_, rfl, rfl⟩
  | csum bs => exact .inl ⟨_, rfl, rfl⟩
  | encode c canId extended data => exact .inl ⟨_, rfl, rfl⟩
  | decode raw => exact .inl ⟨_, rfl, rfl⟩
  | feed b => exact .inr (.inl ⟨.feed b, rfl, by simp, rfl⟩)
  | flush => exact .inr (.inl ⟨.flush, rfl, by simp, rfl⟩)
  | rxByte b => exact .inr (.inr (.inl ⟨.feed b, rfl, by simp, rfl⟩))
  | rxFlush => exact .inr (.inr (.inl ⟨.flush, rfl, by simp, rfl⟩))
  | reset => exact .inr (.inr (.inr ⟨rfl, rfl⟩))

end Sys2Proof.Machine
end

