-- ==== Sys2Proof/Tests/Slice0.lean ====
section
/-! SUPPORT. Small tests: the words of every constructor decode to it, the vectors of 95_test_vectors.md hold for one step,
ill-formed terms are refused, and every statement's hypotheses are met by a concrete state and operands. -/

namespace Sys2Proof.Tests

open Sys2Proof.Machine Sys2Proof.Claims

/-- A state with the given reassembler and nothing else. -/
def at_ (armed : Bool) (buf : List Byte) : State := { State.reset with rsm := { buf := buf, armed := armed } }

/-- The same in a machine with the given capacity. -/
def under (cap : Option Nat) (armed : Bool) (buf : List Byte) : State :=
  { at_ armed buf with config := { Config.taken with rsmCap := cap } }

/-- The reassembler and the results after one step that performs the request. -/
def stepOn (s : State) (port : Port) (bs : List Byte) : Option (Rsm × List Output) :=
  match step (s.present port bs) with
  | .next t => some (t.rsm, t.outputs)
  | .fault _ => none
  | .refused _ => none

/-- The refusal of one step that meets the request. -/
def refusalOn (s : State) (port : Port) (bs : List Byte) : Option Refusal :=
  match step (s.present port bs) with
  | .next _ => none
  | .fault _ => none
  | .refused r => some r

/-- `ex1`, the packet of the source's Example 1 (95_test_vectors.md). -/
def ex1 : List Byte := [0xAA, 0x01, 0x01, 0x00, 0x00, 0x01, 0x23, 0x03, 0x11, 0x22, 0x33, 0x8F]

/-- `hb`, the HEARTBEAT packet with no data (95_test_vectors.md). -/
def hb : List Byte := [0xAA, 0x01, 0x02, 0x00, 0x00, 0x00, 0x00, 0x00, 0x03]

/-- The frame of `ex1`. -/
def frame1 : Frame :=
  { command := .canSend, canId := 0x123, data := [0x11, 0x22, 0x33], extended := false, flags := 0x03 }

/-! ### Ill-formed terms are refused -/

theorem test_wf_command_data : (Instr.ping (.send 0 false (List.replicate 16 0))).wellFormed = false := by decide
theorem test_wf_escEscape : (Instr.escEscape 0xAC).wellFormed = false := by decide
theorem test_wf_escPass_start : (Instr.escPass 0xAA).wellFormed = false := by decide
theorem test_wf_escPass_lead : (Instr.escPass 0xAB).wellFormed = false := by decide
theorem test_wf_unescPass : (Instr.unescPass 0xAB).wellFormed = false := by decide
theorem test_wf_feedData : (Instr.feedData 0xAA).wellFormed = false := by decide

/-! ### Every constructor's word, written out from 30_encoding.md R41, R47, R53 and spec/opcode_table.json -/

theorem test_decode_canSend :
    decode .txPayload [0b00000001, 0b00000001, 0x12, 0x34, 0x56, 0x78, 0b10000010, 0x0A, 0x0B] =
      .instr (.canSend (.send 0x12345678 true [0x0A, 0x0B])) ∧
    decode .rxPayload [0b00000001, 0b00000001, 0xFF] = .instr (.canSend (.receive [0xFF])) := by decide
theorem test_decode_heartbeat :
    decode .txPayload [0b00000001, 0b00000010, 0x12, 0x34, 0x56, 0x78, 0b10000010, 0x0A, 0x0B] =
      .instr (.heartbeat (.send 0x12345678 true [0x0A, 0x0B])) ∧
    decode .rxPayload [0b00000001, 0b00000010, 0xFF] = .instr (.heartbeat (.receive [0xFF])) := by decide
theorem test_decode_ack :
    decode .txPayload [0b00000001, 0b00000011, 0x12, 0x34, 0x56, 0x78, 0b10000010, 0x0A, 0x0B] =
      .instr (.ack (.send 0x12345678 true [0x0A, 0x0B])) ∧
    decode .rxPayload [0b00000001, 0b00000011, 0xFF] = .instr (.ack (.receive [0xFF])) := by decide
theorem test_decode_nack :
    decode .txPayload [0b00000001, 0b00000100, 0x12, 0x34, 0x56, 0x78, 0b10000010, 0x0A, 0x0B] =
      .instr (.nack (.send 0x12345678 true [0x0A, 0x0B])) ∧
    decode .rxPayload [0b00000001, 0b00000100, 0xFF] = .instr (.nack (.receive [0xFF])) := by decide
theorem test_decode_deviceInfo :
    decode .txPayload [0b00000001, 0b00010000, 0x12, 0x34, 0x56, 0x78, 0b10000010, 0x0A, 0x0B] =
      .instr (.deviceInfo (.send 0x12345678 true [0x0A, 0x0B])) ∧
    decode .rxPayload [0b00000001, 0b00010000, 0xFF] = .instr (.deviceInfo (.receive [0xFF])) := by decide
theorem test_decode_ping :
    decode .txPayload [0b00000001, 0b00100000, 0x12, 0x34, 0x56, 0x78, 0b10000010, 0x0A, 0x0B] =
      .instr (.ping (.send 0x12345678 true [0x0A, 0x0B])) ∧
    decode .rxPayload [0b00000001, 0b00100000, 0xFF] = .instr (.ping (.receive [0xFF])) := by decide
theorem test_decode_configGet :
    decode .txPayload [0b00000001, 0b00110000, 0x12, 0x34, 0x56, 0x78, 0b10000010, 0x0A, 0x0B] =
      .instr (.configGet (.send 0x12345678 true [0x0A, 0x0B])) ∧
    decode .rxPayload [0b00000001, 0b00110000, 0xFF] = .instr (.configGet (.receive [0xFF])) := by decide
theorem test_decode_configSet :
    decode .txPayload [0b00000001, 0b00110001, 0x12, 0x34, 0x56, 0x78, 0b10000010, 0x0A, 0x0B] =
      .instr (.configSet (.send 0x12345678 true [0x0A, 0x0B])) ∧
    decode .rxPayload [0b00000001, 0b00110001, 0xFF] = .instr (.configSet (.receive [0xFF])) := by decide
theorem test_decode_resetCommand :
    decode .txPayload [0b00000001, 0b01000000, 0x12, 0x34, 0x56, 0x78, 0b10000010, 0x0A, 0x0B] =
      .instr (.resetCommand (.send 0x12345678 true [0x0A, 0x0B])) ∧
    decode .rxPayload [0b00000001, 0b01000000, 0xFF] = .instr (.resetCommand (.receive [0xFF])) := by decide
theorem test_decode_setFilter :
    decode .txPayload [0b00000001, 0b01000001, 0x12, 0x34, 0x56, 0x78, 0b10000010, 0x0A, 0x0B] =
      .instr (.setFilter (.send 0x12345678 true [0x0A, 0x0B])) ∧
    decode .rxPayload [0b00000001, 0b01000001, 0xFF] = .instr (.setFilter (.receive [0xFF])) := by decide
theorem test_decode_clearFilter :
    decode .txPayload [0b00000001, 0b01000010, 0x12, 0x34, 0x56, 0x78, 0b10000010, 0x0A, 0x0B] =
      .instr (.clearFilter (.send 0x12345678 true [0x0A, 0x0B])) ∧
    decode .rxPayload [0b00000001, 0b01000010, 0xFF] = .instr (.clearFilter (.receive [0xFF])) := by decide
theorem test_decode_escEscape : decode .payloadByte [0b10101010] = .instr (.escEscape 0xAA) := by decide
theorem test_decode_escPass : decode .payloadByte [0b10101100] = .instr (.escPass 0xAC) := by decide
theorem test_decode_unescLead : decode .bodyByte [0b10101011, 0b00100001] = .instr (.unescLead (some 0x21)) := by decide
theorem test_decode_unescLead_dangling : decode .bodyByte [0b10101011] = .instr (.unescLead none) := by decide
theorem test_decode_unescPass : decode .bodyByte [0b10101010] = .instr (.unescPass 0xAA) := by decide
theorem test_decode_feedStart : decode .streamByte [0b10101010] = .instr (.feedStart) := by decide
theorem test_decode_feedData : decode .streamByte [0b10101011] = .instr (.feedData 0xAB) := by decide
theorem test_decode_esc : decode .esc [0xAA] = .instr (.esc 0xAA) := by decide
theorem test_decode_escSeq : decode .escSeq [0x01, 0xAA] = .instr (.escSeq [0x01, 0xAA]) := by decide
theorem test_decode_unesc : decode .unesc [0xAB] = .instr (.unesc [0xAB]) := by decide
theorem test_decode_csum : decode .csum [0xFF, 0x01] = .instr (.csum [0xFF, 0x01]) := by decide
theorem test_decode_encode : decode .encode [0x20, 0x00, 0x00, 0x01, 0x23, 0x01, 0x07] = .instr (.encode .ping 0x123 true [0x07]) := by decide
theorem test_decode_decode : decode .decode [0xAA] = .instr (.decode [0xAA]) := by decide
theorem test_decode_feed : decode .feed [0x55] = .instr (.feed 0x55) := by decide
theorem test_decode_flush : decode .flush [] = .instr (.flush) := by decide
theorem test_decode_rxByte : decode .rxByte [0x55] = .instr (.rxByte 0x55) := by decide
theorem test_decode_rxFlush : decode .rxFlush [] = .instr (.rxFlush) := by decide
theorem test_decode_reset : decode .reset [] = .instr (.reset) := by decide

/-! ### Requests the decoder rejects by name, and a stray payload -/

theorem test_reject_version : decode .txPayload [0x02, 0x01, 0, 0, 0, 0, 0] = .rejected (.illegalVersion 0x02) := by decide
theorem test_reject_command : decode .txPayload [0x01, 0x43, 0, 0, 0, 0, 0] = .rejected (.commandOutsideSet 0x43) := by decide
theorem test_reject_flags : decode .txPayload [0x01, 0x01, 0, 0, 0, 0, 0x10] = .rejected (.unnamedFlagBits 0x10) := by decide
theorem test_reject_length :
    decode .txPayload [0x01, 0x01, 0, 0, 0, 0, 0x01] = .rejected (.malformedRequest .txPayload) := by decide
theorem test_stray_payload :
    decode .rxPayload [0x02, 0x01, 0xAA] = .instr (.decode [0xAA, 0x02, 0x01, 0xAB, 0x8A]) := by decide
theorem test_step_refuses_second_reader :
    (match step { State.reset with reader := some 1, requests := [{ context := 2, port := .flush, bytes := [] }] } with
      | .refused r => some r
      | .next _ => none
      | .fault _ => none) = some (.secondReader 1 2) := by decide

/-! ### Table words (16 bits: version in the high byte, command in the low byte; 8 bits: the most specific row) -/

theorem test_table_canSend : decodeTableWord 16 0x0101 = some (.canSend (.send 0 false [])) := by decide
theorem test_table_clearFilter : decodeTableWord 16 0x0142 = some (.clearFilter (.send 0 false [])) := by decide
theorem test_table_feedStart : decodeTableWord 8 0xAA = some .feedStart := by decide
theorem test_table_unescLead : decodeTableWord 8 0xAB = some (.unescLead (some 0)) := by decide
theorem test_table_step_ack :
    (match step (State.reset.withFetchWord 16 0x0103) with
      | .next t => t.outputs
      | .fault _ => []
      | .refused _ => []) =
      [.encoded (.ok [0xAA, 0x01, 0x03, 0x00, 0x00, 0x00, 0x00, 0x00, 0x04])] := by decide

/-! ### One step, against the vectors of 95_test_vectors.md -/

/-- V-N1; the reassembler keeps what it holds. -/
theorem test_send_canSend :
    stepOn (at_ true [0x55]) .txPayload [0x01, 0x01, 0, 0, 0x01, 0x23, 0x03, 0x11, 0x22, 0x33] = some (⟨[0x55], true⟩, [.encoded (.ok ex1)]) := by decide
/-- V-N24; the reassembler keeps what it holds. -/
theorem test_send_heartbeat :
    stepOn (at_ true [0x55]) .txPayload [0x01, 0x02, 0, 0, 0, 0, 0x0F, 1, 2, 3, 4, 5, 6, 7, 8, 9, 10, 11, 12, 13, 14, 15] = some (⟨[0x55], true⟩, [.encoded (.ok [0xAA, 0x01, 0x02, 0, 0, 0, 0, 0x0F, 1, 2, 3, 4, 5, 6, 7, 8, 9, 10, 11, 12, 13, 14, 15, 0x8A])]) := by decide
/-- V-N3; the reassembler keeps what it holds. -/
theorem test_send_ack :
    stepOn (at_ true [0x55]) .txPayload [0x01, 0x03, 0, 0, 0, 0, 0] = some (⟨[0x55], true⟩, [.encoded (.ok [0xAA, 0x01, 0x03, 0, 0, 0, 0, 0, 0x04])]) := by decide
/-- V-N4; the reassembler keeps what it holds. -/
theorem test_send_nack :
    stepOn (at_ true [0x55]) .txPayload [0x01, 0x04, 0, 0, 0, 0, 0] = some (⟨[0x55], true⟩, [.encoded (.ok [0xAA, 0x01, 0x04, 0, 0, 0, 0, 0, 0x05])]) := by decide
/-- V-N5; the reassembler keeps what it holds. -/
theorem test_send_deviceInfo :
    stepOn (at_ true [0x55]) .txPayload [0x01, 0x10, 0, 0, 0, 0, 0] = some (⟨[0x55], true⟩, [.encoded (.ok [0xAA, 0x01, 0x10, 0, 0, 0, 0, 0, 0x11])]) := by decide
/-- V-N25; the reassembler keeps what it holds. -/
theorem test_send_ping :
    stepOn (at_ true [0x55]) .txPayload [0x01, 0x20, 0x20, 0x20, 0x20, 0x20, 0x01, 0x20] = some (⟨[0x55], true⟩, [.encoded (.ok [0xAA, 0x01, 0x20, 0x20, 0x20, 0x20, 0x20, 0x01, 0x20, 0xC2])]) := by decide
/-- V-N7; the reassembler keeps what it holds. -/
theorem test_send_configGet :
    stepOn (at_ true [0x55]) .txPayload [0x01, 0x30, 0, 0, 0, 0, 0x01, 0x07] = some (⟨[0x55], true⟩, [.encoded (.ok [0xAA, 0x01, 0x30, 0, 0, 0, 0, 0x01, 0x07, 0x39])]) := by decide
/-- V-N8; the reassembler keeps what it holds. -/
theorem test_send_configSet :
    stepOn (at_ true [0x55]) .txPayload [0x01, 0x31, 0, 0, 0, 0, 0x03, 0x07, 0x01, 0xF4] = some (⟨[0x55], true⟩, [.encoded (.ok [0xAA, 0x01, 0x31, 0, 0, 0, 0, 0x03, 0x07, 0x01, 0xF4, 0x31])]) := by decide
/-- V-N9; the reassembler keeps what it holds. -/
theorem test_send_resetCommand :
    stepOn (at_ true [0x55]) .txPayload [0x01, 0x40, 0, 0, 0, 0, 0] = some (⟨[0x55], true⟩, [.encoded (.ok [0xAA, 0x01, 0x40, 0, 0, 0, 0, 0, 0x41])]) := by decide
/-- V-N10; the reassembler keeps what it holds. -/
theorem test_send_setFilter :
    stepOn (at_ true [0x55]) .txPayload [0x01, 0x41, 0, 0, 0, 0, 0x04, 0, 0, 0x01, 0x23] = some (⟨[0x55], true⟩, [.encoded (.ok [0xAA, 0x01, 0x41, 0, 0, 0, 0, 0x04, 0, 0, 0x01, 0x23, 0x6A])]) := by decide
/-- V-N11; the reassembler keeps what it holds. -/
theorem test_send_clearFilter :
    stepOn (at_ true [0x55]) .txPayload [0x01, 0x42, 0, 0, 0, 0, 0] = some (⟨[0x55], true⟩, [.encoded (.ok [0xAA, 0x01, 0x42, 0, 0, 0, 0, 0, 0x43])]) := by decide
/-- V-E6. -/
theorem test_esc_start : stepOn State.reset .esc [0xAA] = some (⟨[], false⟩, [.bytes [0xAB, 0x8A]]) := by decide
/-- V-E8. -/
theorem test_esc_neighbour : stepOn State.reset .esc [0xAC] = some (⟨[], false⟩, [.bytes [0xAC]]) := by decide
/-- V-E7. -/
theorem test_escEscape : stepOn State.reset .payloadByte [0xAB] = some (⟨[], false⟩, [.bytes [0xAB, 0x8B]]) := by decide
/-- V-E5. -/
theorem test_escPass : stepOn State.reset .payloadByte [0xA9] = some (⟨[], false⟩, [.bytes [0xA9]]) := by decide
/-- V-U4. -/
theorem test_unescLead : stepOn State.reset .bodyByte [0xAB, 0xAB] = some (⟨[], false⟩, [.bytes [0x8B]]) := by decide
/-- V-U8. -/
theorem test_unescLead_last : stepOn State.reset .bodyByte [0xAB] = some (⟨[], false⟩, [.bytes []]) := by decide
/-- V-U10. -/
theorem test_unescPass : stepOn State.reset .bodyByte [0xAA] = some (⟨[], false⟩, [.bytes [0xAA]]) := by decide
/-- V-S4. -/
theorem test_escSeq : stepOn State.reset .escSeq [0xAB, 0x8A] = some (⟨[], false⟩, [.bytes [0xAB, 0x8B, 0x8A]]) := by decide
/-- V-S2. -/
theorem test_escSeq_mixed : stepOn State.reset .escSeq [0xAA, 0xAB, 0xAA] = some (⟨[], false⟩, [.bytes [0xAB, 0x8A, 0xAB, 0x8B, 0xAB, 0x8A]]) := by decide
/-- V-U11. -/
theorem test_unesc_three_leads : stepOn State.reset .unesc [0xAB, 0xAB, 0xAB] = some (⟨[], false⟩, [.bytes [0x8B]]) := by decide
/-- V-U6. -/
theorem test_unesc_noncanonical : stepOn State.reset .unesc [0xAB, 0x21] = some (⟨[], false⟩, [.bytes [0x01]]) := by decide
/-- V-C4. -/
theorem test_csum_wrap : stepOn State.reset .csum [0xFF, 0xFF] = some (⟨[], false⟩, [.sum 0xFE]) := by decide
/-- V-C9. -/
theorem test_csum_long : stepOn State.reset .csum (List.replicate 23 0xFF) = some (⟨[], false⟩, [.sum 0xE9]) := by decide
/-- V-N16. -/
theorem test_encode_ids : stepOn State.reset .encode [0x01, 0xAA, 0xAB, 0xAA, 0xAB, 0x01, 0xAA, 0xAB] = some (⟨[], false⟩, [.encoded (.ok [0xAA, 0x01, 0x01, 0xAB, 0x8A, 0xAB, 0x8B, 0xAB, 0x8A, 0xAB, 0x8B, 0x82, 0xAB, 0x8A, 0xAB, 0x8B, 0x83])]) := by decide
/-- V-N28. -/
theorem test_encode_too_large : stepOn State.reset .encode ([0x31, 0, 0, 0, 0, 0, 0x07] ++ List.replicate 15 0x00) = some (⟨[], false⟩, [.encoded (.err .frameTooLarge)]) := by decide
/-- V-D22. -/
theorem test_decode_trailing : stepOn State.reset .decode (ex1 ++ [0xDE, 0xAD]) = some (⟨[], false⟩, [.decoded (.ok frame1)]) := by decide
/-- V-D15. -/
theorem test_decode_order : stepOn State.reset .decode [0xAA, 0x01, 0x05, 0, 0, 0, 0, 0x03, 0x09] = some (⟨[], false⟩, [.decoded (.err .unknownCommand)]) := by decide
/-- V-D28. -/
theorem test_receive_flags : stepOn State.reset .rxPayload [0x01, 0x01, 0, 0, 0x01, 0x23, 0x73, 0x11, 0x22, 0x33, 0xFF] = some (⟨[], false⟩, [.decoded (.ok { frame1 with flags := 0x73 })]) := by decide
/-- V-D24. -/
theorem test_receive_bad_sum : stepOn State.reset .rxPayload [0x01, 0x01, 0, 0, 0x01, 0x23, 0x03, 0x11, 0x22, 0x33, 0x8E] = some (⟨[], false⟩, [.decoded (.err .checksumMismatch)]) := by decide
/-- V-R3. -/
theorem test_feedStart_closes : stepOn (at_ true [0x01, 0x02]) .streamByte [0xAA] = some (⟨[], true⟩, [.candidate (some [0xAA, 0x01, 0x02])]) := by decide
/-- V-R1. -/
theorem test_feedStart_arms : stepOn (at_ false []) .streamByte [0xAA] = some (⟨[], true⟩, [.candidate none]) := by decide
/-- V-R1. -/
theorem test_feedData_discards : stepOn (at_ false []) .streamByte [0xAB] = some (⟨[], false⟩, [.candidate none]) := by decide
/-- V-R1. -/
theorem test_feedData_appends : stepOn (at_ true []) .streamByte [0x01] = some (⟨[0x01], true⟩, [.candidate none]) := by decide
/-- V-R2. -/
theorem test_feed_back_to_back : stepOn (at_ true []) .feed [0xAA] = some (⟨[], true⟩, [.candidate none]) := by decide
/-- P5. -/
theorem test_feed_escape_is_data : stepOn (at_ true [0x01]) .feed [0xAB] = some (⟨[0x01, 0xAB], true⟩, [.candidate none]) := by decide
/-- V-R4. -/
theorem test_flush_emits : stepOn (at_ true [0x01, 0x02]) .flush [] = some (⟨[], true⟩, [.candidate (some [0xAA, 0x01, 0x02])]) := by decide
/-- V-R5. -/
theorem test_flush_nothing : stepOn (at_ false []) .flush [] = some (⟨[], false⟩, [.candidate none]) := by decide
/-- P4 byte 8. -/
theorem test_rxByte_drops : stepOn (at_ true [0x01, 0x02, 0xFF]) .rxByte [0xAA] = some (⟨[], true⟩, [.received (.dropped .truncated)]) := by decide
/-- V-X1. -/
theorem test_rxByte_delivers : stepOn (at_ true hb.tail) .rxByte [0xAA] = some (⟨[], true⟩, [.received (.frame ⟨.heartbeat, 0, [], false, 0x00⟩)]) := by decide
/-- V-X2. -/
theorem test_rxFlush_drops : stepOn (at_ true (ex1.tail.dropLast ++ [0x8E])) .rxFlush [] = some (⟨[], true⟩, [.received (.dropped .checksumMismatch)]) := by decide
/-- V-X1. -/
theorem test_rxFlush_nothing : stepOn (at_ true []) .rxFlush [] = some (⟨[], true⟩, [.received .absent]) := by decide
/-- V-R6. -/
theorem test_reset : stepOn (at_ true [0x01, 0x02]) .reset [] = some (⟨[], false⟩, []) := by decide
/-- 42_reassembler.md R113: a byte fed to a full buffer is dropped. -/
theorem test_feed_full :
    (stepOn (at_ true (List.replicate 64 0x00)) .feed [0x01]).map (fun x => x.1) =
      some ⟨List.replicate 64 0x00, true⟩ := by decide
/-- 00_scope.md R7, 42_reassembler.md R113: the capacity is the one the machine is built with. -/
theorem test_rxByte_full_46 :
    (stepOn (under (some 46) true (List.replicate 46 0x00)) .rxByte [0x01]).map (fun x => x.1) =
      some ⟨List.replicate 46 0x00, true⟩ := by decide
/-- 00_scope.md R7, 42_reassembler.md R113: an unbounded buffer takes the byte that the 64th place would drop. -/
theorem test_feedData_unbounded :
    (stepOn (under none true (List.replicate 64 0x00)) .streamByte [0x01]).map (fun x => x.1) =
      some ⟨List.replicate 64 0x00 ++ [0x01], true⟩ := by decide
/-- 41_codec.md R80, D23: any length above 15 behaves alike, 256 bytes included. -/
theorem test_encode_beyond_255 :
    stepOn State.reset .encode ([0x20, 0, 0, 0, 0, 0] ++ List.replicate 256 0x00) =
      some (⟨[], false⟩, [.encoded (.err .frameTooLarge)]) := by decide +kernel

/-! ### Each statement's hypotheses are met -/

theorem witness_StepKeepsLegal :
    ∃ s t : State, s.Legal ∧ step s = .next t ∧ s.requests ≠ [] ∧ t.rsm.buf = [0x01] :=
  ⟨(at_ true []).present .feed [0x01], _, by decide, rfl, by decide, by decide⟩

theorem witness_ReassemblerFollowsItsTable :
    Config.legal { Config.taken with rsmCap := some 46 } = true ∧ Config.legal { Config.taken with rsmCap := none } = true ∧
    (0x55 : Byte) ≠ 0xAA ∧ Rsm.phase ⟨[], false⟩ = some .hunt ∧ Rsm.phase ⟨[], true⟩ = some .sync ∧
    Rsm.phase ⟨[0x01], true⟩ = some .collect := by decide

theorem witness_ByteClassesActAsTheirOperation :
    ((0xAB : Byte) = 0xAA ∨ (0xAB : Byte) = 0xAB) ∧ (0xAC : Byte) ≠ 0xAA ∧ (0xAC : Byte) ≠ 0xAB := by decide

theorem witness_EscEscapesTheTwoSpecialBytes :
    ((0xAA : Byte) = 0xAA ∨ (0xAA : Byte) = 0xAB) ∧ (0xA9 : Byte) ≠ 0xAA ∧ (0xA9 : Byte) ≠ 0xAB := by decide

theorem witness_UnescReadsLeftToRight : (0xAA : Byte) ≠ 0xAB := by decide

theorem witness_CsumLaws :
    ([0x11, 0x22] : List Byte).Perm [0x22, 0x11] ∧ 1 < ([0x11, 0x22] : List Byte).length ∧ byteAt [0x11, 0x22] 1 ≠ 0x23 :=
  ⟨List.Perm.swap _ _ _, by decide, by decide⟩

theorem witness_UnescIsLocal : 2 * 1 ≤ ([0xAB, 0x8A] : List Byte).length := by decide

theorem witness_StreamingFormsAgree : (List.replicate 15 0xAA : List Byte).length ≤ 15 := by decide

theorem witness_EncodeBuildsThePacket :
    (Command.ping, (0x20 : Byte)) ∈ commandCodes ∧ (List.replicate 15 0x00 : List Byte).length ≤ 15 ∧
    15 < (List.replicate 16 0x00 : List Byte).length := by decide

theorem witness_DecodeChecksVersionCommandLength :
    (8 ≤ (unesc [0x02, 0x01, 0, 0, 0, 0, 0, 0x03]).length ∧ byteAt (unesc [0x02, 0x01, 0, 0, 0, 0, 0, 0x03]) 0 ≠ 0x01) ∧
    (byteAt (unesc [0x01, 0x43, 0, 0, 0, 0, 0, 0x44]) 0 = 0x01 ∧
      byteAt (unesc [0x01, 0x43, 0, 0, 0, 0, 0, 0x44]) 1 ∉ commandCodes.map Prod.snd) ∧
    (8 ≤ (unesc [0x01, 0x43, 0, 0, 0, 0, 0, 0x44]).length ∧ 8 ≤ (unesc [0x01, 0x01, 0, 0, 0, 0, 0x01, 0x03]).length ∧
      byteAt (unesc [0x01, 0x01, 0, 0, 0, 0, 0x01, 0x03]) 0 = 0x01 ∧
      byteAt (unesc [0x01, 0x01, 0, 0, 0, 0, 0x01, 0x03]) 1 ∈ commandCodes.map Prod.snd ∧
      (unesc [0x01, 0x01, 0, 0, 0, 0, 0x01, 0x03]).length <
        7 + declaredLength (unesc [0x01, 0x01, 0, 0, 0, 0, 0x01, 0x03]) + 1) ∧
    ¬ (unesc [0x01, 0x01, 0, 0, 0, 0, 0x01, 0x05, 0x08]).length <
      7 + declaredLength (unesc [0x01, 0x01, 0, 0, 0, 0, 0x01, 0x05, 0x08]) + 1 := by decide

theorem witness_DecodeTruncatesShortPayloads : (unesc [0x01, 0x01, 0, 0, 0, 0, 0, 0xAB]).length < 8 := by decide

theorem witness_DecodeChecksTheSumAtDlc :
    (Command.canSend, (0x01 : Byte)) ∈ commandCodes ∧ 8 ≤ (unesc ex1.tail).length ∧ byteAt (unesc ex1.tail) 0 = 0x01 ∧
    byteAt (unesc ex1.tail) 1 = 0x01 ∧ 8 + declaredLength (unesc ex1.tail) ≤ (unesc ex1.tail).length ∧
    csum ((unesc ex1.tail).take (7 + declaredLength (unesc ex1.tail))) =
      byteAt (unesc ex1.tail) (7 + declaredLength (unesc ex1.tail)) ∧
    csum ((unesc (ex1.tail.dropLast ++ [0x8E])).take 10) ≠ byteAt (unesc (ex1.tail.dropLast ++ [0x8E])) 10 := by decide

theorem witness_DecodedFrameFields :
    exec (.decode (0xAA :: ex1.tail)) State.reset = .next (returning State.reset (.decoded (.ok frame1))) := by
  have h : decodePacket (0xAA :: ex1.tail) = .ok frame1 := by decide
  show Host.Outcome.next (State.reset.emit (.decoded (decodePacket (0xAA :: ex1.tail)))) = _
  rw [h]; rfl

theorem witness_DecodeInvertsEncode : ([0x11, 0x22, 0x33] : List Byte).length ≤ 15 := by decide

theorem witness_TrailingBytesAreIgnored : encodeFrame .canSend 0x123 false [0x11, 0x22, 0x33] = .ok ex1 := by decide

theorem witness_CorruptedLastByteFails :
    encodeFrame .canSend 0x123 false [0x11, 0x22, 0x33] = .ok (ex1.dropLast ++ [0x8F]) ∧ (0xAB : Byte) ≠ 0x8F := by decide

theorem witness_SingleBitFlipFails :
    encodeFrame .canSend 0x123 false [0x11, 0x22, 0x33] = .ok ex1 ∧ 7 < ex1.length ∧
    (unesc (ex1.set 7 (byteAt ex1 7 ^^^ ((1 : Byte) <<< 6))).tail).length = (unesc ex1.tail).length ∧
    declaredLength (unesc ex1.tail) ≤ declaredLength (unesc (ex1.set 7 (byteAt ex1 7 ^^^ ((1 : Byte) <<< 6))).tail) := by
  decide

theorem witness_PacketBodyHasNoDelimiter :
    encodeFrame .canSend 0xA8 false [] = .ok [0xAA, 0x01, 0x01, 0, 0, 0, 0xA8, 0, 0xAB, 0x8A] ∧
    ([0xAA, 0x01, 0x01, 0, 0, 0, 0xA8, 0, 0xAB, 0x8A] : List Byte).tail[7]? = some (0xAB : Byte) := by decide

theorem witness_PacketSize :
    (Command.heartbeat, (0x02 : Byte)) ∈ commandCodes ∧ encodeFrame .heartbeat 0 false [] = .ok hb := by decide

theorem witness_SentCommandIsEncoded :
    commandRows.length = 11 ∧ ([] : List Byte).length ≤ 15 ∧ 15 < (List.replicate 16 0x00 : List Byte).length := by decide

theorem witness_ArrivedCommandIsDecoded :
    (commandRows.zip (commandCodes.map Prod.fst)).length = 11 ∧
    ([0, 0, 0, 0, 0x01, 0x07] : List Byte).length < 6 + (byteAt [0, 0, 0, 0, 0x01, 0x07] 4 &&& 0x0F).toNat ∧
    6 + (byteAt [0, 0, 0, 0, 0x01, 0x07, 0x39] 4 &&& 0x0F).toNat ≤ ([0, 0, 0, 0, 0x01, 0x07, 0x39] : List Byte).length ∧
    csum ([0x01, 0x30] ++ ([0, 0, 0, 0, 0x01, 0x07, 0x39] : List Byte).take 6) = byteAt [0, 0, 0, 0, 0x01, 0x07, 0x39] 6 ∧
    csum ([0x01, 0x30] ++ ([0, 0, 0, 0, 0x01, 0x07, 0x38] : List Byte).take 6) ≠
      byteAt [0, 0, 0, 0, 0x01, 0x07, 0x38] 6 := by decide

theorem witness_DelimiterClosesACandidate :
    (at_ true [0x01]).rsm.armed = true ∧ (at_ true [0x01]).rsm.buf ≠ [] ∧ (at_ true [0x01]).config.legal = true ∧
    (0x55 : Byte) ≠ 0xAA := by decide

theorem witness_DelimiterOtherwiseArms :
    ((at_ false []).rsm.armed = false ∨ (at_ false []).rsm.buf = []) ∧ (at_ true []).rsm.buf = [] := by decide

theorem witness_UnarmedBytesAreDiscarded :
    (0x55 : Byte) ≠ 0xAA ∧ (at_ false []).rsm.armed = false ∧
    ∃ t, exec .reset (at_ true []) = .next t ∧ (at_ true []).rsm.armed = true ∧ t.rsm.armed = false :=
  ⟨by decide, by decide, _, rfl, by decide, by decide⟩

theorem witness_ArmedBytesAreCollected :
    (0x55 : Byte) ≠ 0xAA ∧ (at_ true []).rsm.armed = true ∧ (at_ true []).config.rsmCap = some 64 ∧
    (at_ true (List.replicate 63 0)).rsm.buf.length < 64 ∧ 64 ≤ (at_ true (List.replicate 64 0)).rsm.buf.length ∧
    (under none true []).config.rsmCap = none ∧ (under none true []).rsm.armed = true := by decide

theorem witness_FlushEmitsOnce : (at_ true [0x01]).rsm.buf ≠ [] ∧ (at_ true []).rsm.buf = [] := by decide

theorem witness_CandidateIsTheBytesSinceTheDelimiter :
    0 < 1 ∧ (0xAA : Byte) ∉ ([0x01, 0xAB] : List Byte) ∧
    (RsmEvent.flush = .feed 0xAA ∨ RsmEvent.flush = .flush) := by decide

theorem witness_CapacityIsInvisibleThroughDecode : 46 ≤ 46 := by decide

theorem witness_RxByteIsFeedThenDecode :
    (Rsm.feed (some 64) ⟨[], true⟩ 0xAA).2 = none ∧
    ((Rsm.feed (some 64) ⟨hb.tail, true⟩ 0xAA).2 = some hb ∧
      decodePacket hb = .ok ⟨.heartbeat, 0, [], false, 0x00⟩) ∧
    ((Rsm.feed (some 64) ⟨[0x01], true⟩ 0xAA).2 = some [0xAA, 0x01] ∧ decodePacket [0xAA, 0x01] = .err .truncated) := by
  decide

theorem witness_RxFlushIsFlushThenDecode :
    (Rsm.flush ⟨[], true⟩).2 = none ∧ (Rsm.flush ⟨hb.tail, true⟩).2 = some hb ∧
    (Rsm.flush ⟨[0x01], true⟩).2 = some [0xAA, 0x01] := by decide

theorem witness_DroppedLeavesTheReassemblerReady :
    (at_ true [0x01]).Legal ∧ ∃ t, exec .rxFlush (at_ true [0x01]) = .next t ∧
      t.outputs = (at_ true [0x01]).outputs ++ [.received (.dropped .truncated)] ∧
      RxResult.dropped .truncated ≠ .absent :=
  ⟨by decide, _, rfl, by decide, by decide⟩

theorem witness_ReceiverResynchronises :
    encodeFrame .canSend 0x123 false [0x11, 0x22, 0x33] = .ok ex1 ∧ encodeFrame .heartbeat 0 false [] = .ok hb ∧
    (0xAA : Byte) ∉ ([0x13, 0x37, 0xAB] : List Byte) ∧ State.reset.rsm.buf = [] ∧ State.reset.config.legal = true := by decide

theorem witness_PureOperationsIgnoreTheState : (Instr.decode []).usesReassembler = false := by decide

theorem witness_InterleavedCodecOperationsAreInvisible :
    ∃ t, performAll [.feed 0xAA, .csum [0x01], .feed 0x01] State.reset = .next t ∧ t.rsm.buf = [0x01] :=
  ⟨_, rfl, by decide⟩

theorem witness_DecodeReadsBackEveryInstruction :
    (Instr.setFilter (.send 0xAAABAAAB true (List.replicate 15 0xAA))).wellFormed = true := by decide

theorem witness_DecodedInstructionsAreWellFormed :
    decode .encode [0x42, 0, 0, 0, 0, 0x01] = .instr (.encode .clearFilter 0 true []) ∧ Port.encode ≠ .rxPayload := by
  decide

theorem witness_StepRunsTheDecodedInstruction :
    ((at_ true []).present .feed [0x01]).requests = { context := 0, port := .feed, bytes := [0x01] } :: [] ∧
    decode .feed [0x01] = .instr (.feed 0x01) ∧ (Instr.feed 0x01).usesReassembler = true ∧
    ((at_ true []).present .feed [0x01]).reader = none ∧
    decode .csum [0x01] = .instr (.csum [0x01]) ∧ (Instr.csum [0x01]).usesReassembler = false := by decide

theorem witness_StepRefusesAtTheInterface :
    (∃ (s : State) (q : Request), s.requests = q :: [] ∧ decode q.port q.bytes = .instr .flush ∧
      Instr.flush.usesReassembler = true ∧ s.reader = some 1 ∧ 1 ≠ q.context) ∧
    (0x43 : Byte) ∉ commandCodes.map Prod.snd ∧
    (State.reset.present .encode [0x43, 0, 0, 0, 0, 0]).requests =
      { context := 0, port := .encode, bytes := 0x43 :: 0 :: 0 :: 0 :: 0 :: 0 :: [] } :: [] :=
  ⟨⟨{ State.reset with reader := some 1, requests := [{ context := 2, port := .flush, bytes := [] }] },
    { context := 2, port := .flush, bytes := [] }, by decide⟩, by decide, by decide⟩

theorem test_step_refuses_unknown_command :
    refusalOn State.reset .encode [0x43, 0, 0, 0, 0, 0] = some (.commandOutsideSet 0x43) := by decide

theorem witness_IdleStepHoldsTheState : (at_ true [0x01]).requests = [] := by decide

theorem witness_FetchWordRunsTheTableWord : decodeTableWord 16 0x0120 = some (.ping (.send 0 false [])) := by decide

theorem witness_ResultsHaveTheirStatusCodes : State.reset.config.legal = true := by decide

theorem witness_StepKeepsTheConfiguration :
    ∃ t, step ((under none true []).present .reset []) = .next t ∧ t.rsm.armed = false :=
  ⟨_, rfl, by decide⟩

theorem witness_EncodeRespectsTheConfiguredMaxima :
    Config.taken.legal = true ∧ encodeFrame .canSend 0x123 false [0x11, 0x22, 0x33] = .ok ex1 := by decide

theorem witness_LegalConfigurationsAnswerAlike :
    Config.taken.legal = true ∧ Config.legal { Config.taken with rsmCap := none } = true := by decide

theorem witness_RunPerformsTheRequestsInOrder :
    (∀ i ∈ [Instr.feed 0xAA, .ack (.send 0 false [])], i.wellFormed = true) ∧
    ∃ s : State, s.requests = ([Instr.feed 0xAA, .ack (.send 0 false [])].map
      fun i => { context := 7, port := (encode i).1, bytes := (encode i).2 }) ∧ s.reader = none :=
  ⟨by decide, { State.reset with requests := _ }, rfl, rfl⟩

end Sys2Proof.Tests
end

section
/-! The wire alphabet of an escaped sequence (30_encoding.md R51): no delimiter, and the lead only in front of its two
partners. -/

namespace Sys2Proof.Machine

/-- What ESC can emit: one of two fixed pairs, or a byte that is neither the delimiter nor the lead. -/
theorem esc_cases (b : Byte) :
    esc b = [ESC_BYTE, 0x8A] ∨ esc b = [ESC_BYTE, 0x8B] ∨ (b ≠ START_BYTE ∧ b ≠ ESC_BYTE ∧ esc b = [b]) := by
  by_cases h : b = START_BYTE ∨ b = ESC_BYTE
  · obtain rfl | rfl := h
    · exact .inl rfl
    · exact .inr (.inl rfl)
  · obtain ⟨hstart, hlead⟩ := not_or.mp h
    exact .inr (.inr ⟨hstart, hlead, esc_of_plain hstart hlead⟩)

theorem start_not_mem_esc (b : Byte) : START_BYTE ∉ esc b := by
  obtain h | h | ⟨hstart, -, h⟩ := esc_cases b
  · rw [h]; decide
  · rw [h]; decide
  · rw [h, List.mem_singleton]; exact hstart.symm

theorem start_not_mem_escSeq (bs : List Byte) : START_BYTE ∉ escSeq bs := by
  induction bs with
  | nil => exact List.not_mem_nil
  | cons b bs ih =>
    rw [escSeq_cons, List.mem_append, not_or]
    exact ⟨start_not_mem_esc b, ih⟩

/-- Every lead of `wire` stands directly in front of 0x8A or 0x8B, the escaped forms of 0xAA and 0xAB (R50, R51). -/
def LeadsPaired (wire : List Byte) : Prop :=
  ∀ k : Nat, wire[k]? = some ESC_BYTE → wire[k + 1]? = some 0x8A ∨ wire[k + 1]? = some 0x8B

theorem leadsPaired_nil : LeadsPaired [] := fun k h => by simp at h

theorem LeadsPaired.cons_plain {b : Byte} {wire : List Byte} (hb : b ≠ ESC_BYTE) (h : LeadsPaired wire) :
    LeadsPaired (b :: wire)
  | 0, hk => absurd (Option.some.inj hk) hb
  | k + 1, hk => h k hk

theorem LeadsPaired.cons_pair {x : Byte} {wire : List Byte} (hx : x = 0x8A ∨ x = 0x8B) (h : LeadsPaired wire) :
    LeadsPaired (ESC_BYTE :: x :: wire)
  | 0, _ => hx.imp (congrArg some) (congrArg some)
  | k + 1, hk => by
    have hlead : x ≠ ESC_BYTE := by obtain rfl | rfl := hx <;> decide
    exact h.cons_plain hlead k hk

theorem LeadsPaired.esc_append {wire : List Byte} (h : LeadsPaired wire) (b : Byte) : LeadsPaired (esc b ++ wire) := by
  obtain hb | hb | ⟨-, hlead, hb⟩ := esc_cases b <;> rw [hb]
  · exact h.cons_pair (.inl rfl)
  · exact h.cons_pair (.inr rfl)
  · exact h.cons_plain hlead

theorem leadsPaired_escSeq (bs : List Byte) : LeadsPaired (escSeq bs) := by
  induction bs with
  | nil => exact leadsPaired_nil
  | cons b bs ih => exact ih.esc_append b

/-- A packet ENCODE answers is the delimiter and the escaped payload (30_encoding.md R40). -/
theorem eq_packetOf_of_encodeFrame_ok {c : Command} {canId : CanId} {extended : Bool} {data pkt : List Byte}
    (h : encodeFrame c canId extended data = .ok pkt) : pkt = packetOf (encodePayload c canId extended data) := by
  obtain ⟨-, herr⟩ | ⟨-, hok⟩ := encodeFrame_cases c canId extended data
  · rw [herr] at h; cases h
  · rw [hok] at h; cases h; rfl

/-- Settles O25: both halves are facts about escaped sequences, by induction on the sequence; the body of a packet is one. -/
theorem packetBodyHasNoDelimiter : Obligations.PacketBodyHasNoDelimiter := by
  refine ⟨start_not_mem_escSeq, fun c canId extended data pkt h => ?_⟩
  obtain rfl := eq_packetOf_of_encodeFrame_ok h
  exact ⟨rfl, start_not_mem_escSeq _, leadsPaired_escSeq _⟩

end Sys2Proof.Machine
end

section
/-! The primitives ESC, ESCSEQ and CSUM as instructions: each returns one result and changes nothing else
(40_primitives.md R65, R66, R71). -/

namespace Sys2Proof.Machine

open Sys2Proof.Claims (returning)

theorem exec_esc (b : Byte) (s : State) : exec (.esc b) s = .next (returning s (.bytes (esc b))) := rfl

theorem exec_escSeq (bs : List Byte) (s : State) :
    exec (.escSeq bs) s = .next (returning s (.bytes (escSeq bs))) := rfl

theorem exec_csum (bs : List Byte) (s : State) : exec (.csum bs) s = .next (returning s (.sum (csum bs))) := rfl

/-- ESCSEQ has no context: it is ESC on each byte, the outputs concatenated (R66). -/
theorem escSeq_eq_flatMap (bs : List Byte) : escSeq bs = bs.flatMap esc := by
  induction bs with
  | nil => rfl
  | cons b bs ih => rw [escSeq_cons, ih, List.flatMap_cons]

theorem escSeq_append (bs ds : List Byte) : escSeq (bs ++ ds) = escSeq bs ++ escSeq ds := by
  simp only [escSeq_eq_flatMap, List.flatMap_append]

/-- Adding bytes with the carry discarded is reducing the integer sum once at the end (R71). -/
theorem csum_eq_ofNat_sum (bs : List Byte) : csum bs = BitVec.ofNat 8 (bs.map BitVec.toNat).sum := by
  induction bs with
  | nil => rfl
  | cons b bs ih =>
    rw [csum_cons, ih, List.map_cons, List.sum_cons, BitVec.ofNat_add, BitVec.ofNat_toNat, BitVec.setWidth_eq]

/-- Settles O6: ESCSEQ is ESC byte by byte, and ESC's definition is the literal case split of the statement. -/
theorem escSeqEscapesEachByte : Obligations.EscSeqEscapesEachByte := by
  refine ⟨fun bs s => ?_, escSeq_append, escSeq_nil, by decide⟩
  rw [exec_escSeq, escSeq_eq_flatMap]
  rfl

/-- Settles O8: the byte sum is the integer sum in 8 bits, which reduction modulo 256 does not change. -/
theorem csumIsTheSumModulo256 : Obligations.CsumIsTheSumModulo256 := by
  intro bs s
  have reduced (n : Nat) : BitVec.ofNat 8 (n % 256) = BitVec.ofNat 8 n :=
    BitVec.eq_of_toNat_eq (by simp only [BitVec.toNat_ofNat]; omega)
  rw [exec_csum, csum_eq_ofNat_sum, reduced]

/-- Settles O4: ESC on a special and on a plain byte; neither output holds the delimiter. -/
theorem escEscapesTheTwoSpecialBytes : Obligations.EscEscapesTheTwoSpecialBytes := by
  refine fun b s => ⟨fun special => ?_, fun hstart hlead => ?_, start_not_mem_esc b⟩
  · rw [exec_esc, esc_of_special special]; rfl
  · rw [exec_esc, esc_of_plain hstart hlead]

end Sys2Proof.Machine
end

section
/-! DECODE's checks (3) to (5) in their order, and the frame a success answers (41_codec.md R86, R87, R88, R90). -/

namespace Sys2Proof.Machine

open Sys2Proof.Claims (returning commandCodes)

/-- DECODE of an input that passes check (1) answers what the payload checks answer on the unescaped body (R83). -/
theorem exec_decode_start (body : List Byte) (s : State) :
    exec (.decode (0xAA :: body)) s = .next (returning s (.decoded (decodePayload .atDlc (unesc body)))) :=
  calc exec (.decode (0xAA :: body)) s
      = .next (s.emit (.decoded (decodePacketAt s.config.csumPos (START_BYTE :: body)))) := rfl
    _ = .next (returning s (.decoded (decodePayload .atDlc (unesc body)))) := by
      rw [decodePacketAt_eq, decodePacket_start]; rfl

/-- The answer of DECODE can be read off the state it leaves. -/
theorem exec_decode_start_eq_iff (body : List Byte) (s : State) (r : DecodeResult) :
    exec (.decode (0xAA :: body)) s = .next (returning s (.decoded r)) ↔ decodePayload .atDlc (unesc body) = r := by
  rw [exec_decode_start]
  refine ⟨fun h => ?_, fun h => by rw [h]⟩
  have houtputs := congrArg State.outputs (Host.Outcome.next.inj h)
  simpa [returning] using houtputs

theorem mem_commandCodes_iff (c : Command) (b : Byte) : (c, b) ∈ commandCodes ↔ c.code = b := by
  cases c <;> simp [commandCodes, Command.code, eq_comm]

theorem cmdOf_eq_some_iff (b : Byte) (c : Command) : cmdOf b = some c ↔ c.code = b :=
  ⟨code_of_cmdOf, fun h => h ▸ cmdOf_code c⟩

/-- A byte is one of the eleven codes exactly when the fallible conversion of R44 answers a command. -/
theorem mem_codes_iff (b : Byte) : b ∈ commandCodes.map Prod.snd ↔ ∃ c, cmdOf b = some c := by
  simp only [List.mem_map, Prod.exists, exists_eq_right, mem_commandCodes_iff, cmdOf_eq_some_iff]

theorem cmdOf_eq_none_iff (b : Byte) : cmdOf b = none ↔ b ∉ commandCodes.map Prod.snd := by
  rw [mem_codes_iff, ← Option.isSome_iff_exists, Option.not_isSome_iff_eq_none]

section
variable {p : List Byte} (hlen : MIN_PAYLOAD ≤ p.length)
include hlen

theorem decodePayload_of_version_ne (hver : versionField p ≠ VERSION) :
    decodePayload .atDlc p = .err .versionMismatch := by
  rw [decodePayload, if_neg (Nat.not_lt.mpr hlen), if_pos hver]

theorem decodePayload_of_cmdOf_none (hver : versionField p = VERSION) (hcmd : cmdOf (commandField p) = none) :
    decodePayload .atDlc p = .err .unknownCommand := by
  rw [decodePayload, if_neg (Nat.not_lt.mpr hlen), if_neg (not_not_intro hver), hcmd]

theorem decodePayload_of_cmdOf_some {c : Command} (hver : versionField p = VERSION)
    (hcmd : cmdOf (commandField p) = some c) : decodePayload .atDlc p = decodeBody .atDlc c p := by
  rw [decodePayload, if_neg (Nat.not_lt.mpr hlen), if_neg (not_not_intro hver), hcmd]

end

/-- Check (5) is the only one of DECODE's last two that answers `Truncated` (R88, R89). -/
theorem decodeBody_eq_truncated_iff (c : Command) (p : List Byte) :
    decodeBody .atDlc c p = .err .truncated ↔ p.length < HDR_LEN + flagsDlc (flagsField p) + 1 := by
  obtain ⟨hshort, h⟩ | ⟨hfits, -, h⟩ | ⟨hfits, -, h⟩ := decodeBody_cases c p
  · simp [h, hshort]
  · simpa [h] using hfits
  · simpa [h] using hfits

/-- `Truncated` comes from check (2) or check (5), each of which a payload as long as it declares passes (R85, R88). -/
theorem length_lt_of_decodePayload_truncated {p : List Byte} (h : decodePayload .atDlc p = .err .truncated) :
    p.length < HDR_LEN + flagsDlc (flagsField p) + 1 := by
  obtain ⟨hshort, -⟩ | ⟨-, -, hres⟩ | ⟨-, -, -, hres⟩ | ⟨c, -, -, -, hres⟩ := decodePayload_cases p
  · have hmin : MIN_PAYLOAD = HDR_LEN + 1 := rfl
    omega
  · rw [hres] at h; cases h
  · rw [hres] at h; cases h
  · exact (decodeBody_eq_truncated_iff c p).mp (hres ▸ h)

/-- What a success of DECODE says of the payload, and its frame (R87, R88, R90). -/
theorem decodePayload_eq_ok {p : List Byte} {f : Frame} (h : decodePayload .atDlc p = .ok f) :
    f.command.code = commandField p ∧ HDR_LEN + flagsDlc (flagsField p) + 1 ≤ p.length ∧
    f = { command := f.command
          canId := canIdField p
          data := dataField p (flagsDlc (flagsField p))
          extended := flagsExtended (flagsField p)
          flags := flagsField p } := by
  obtain ⟨-, hres⟩ | ⟨-, -, hres⟩ | ⟨-, -, -, hres⟩ | ⟨c, -, -, hcmd, hres⟩ := decodePayload_cases p
  · rw [hres] at h; cases h
  · rw [hres] at h; cases h
  · rw [hres] at h; cases h
  · obtain ⟨-, hbody⟩ | ⟨-, -, hbody⟩ | ⟨hfits, -, hbody⟩ := decodeBody_cases c p
    · rw [hres, hbody] at h; cases h
    · rw [hres, hbody] at h; cases h
    · rw [hres, hbody] at h; cases h
      exact ⟨code_of_cmdOf hcmd, hfits, rfl⟩

/-- Four bytes fill 32 bits, so assembling them loses nothing (R8). -/
theorem be32_toNat (b0 b1 b2 b3 : Byte) :
    (be32 b0 b1 b2 b3).toNat = b0.toNat * 2 ^ 24 + b1.toNat * 2 ^ 16 + b2.toNat * 2 ^ 8 + b3.toNat := by
  rw [be32, BitVec.toNat_ofNat]
  have h0 := b0.isLt
  have h1 := b1.isLt
  have h2 := b2.isLt
  have h3 := b3.isLt
  omega

theorem flagsExtended_iff (flags : Byte) : flagsExtended flags = true ↔ flags &&& 0x80 ≠ 0 := bne_iff_ne

/-- Settles O15: each clause is the first check that fails; `Truncated` comes from a length check alone. -/
theorem decodeChecksVersionCommandLength : Obligations.DecodeChecksVersionCommandLength := by
  intro body s hlen
  simp only [exec_decode_start_eq_iff, ne_eq]
  refine ⟨fun hver => ?_, fun hver hcmd => ?_, fun hver hcmd hshort => ?_, fun hfits htrunc => ?_⟩
  · exact decodePayload_of_version_ne hlen hver
  · exact decodePayload_of_cmdOf_none hlen hver ((cmdOf_eq_none_iff _).mpr hcmd)
  · obtain ⟨c, hc⟩ := (mem_codes_iff _).mp hcmd
    exact (decodePayload_of_cmdOf_some hlen hver hc).trans ((decodeBody_eq_truncated_iff c _).mpr hshort)
  · exact hfits (length_lt_of_decodePayload_truncated htrunc)

/-- Settles O19: a success fixes the whole frame, and check (5) makes room for all the data the flags declare. -/
theorem decodedFrameFields : Obligations.DecodedFrameFields := by
  intro body s f h
  rw [exec_decode_start_eq_iff] at h
  obtain ⟨hcode, hfits, hframe⟩ := decodePayload_eq_ok h
  rw [hframe]
  refine ⟨(mem_commandCodes_iff _ _).mpr hcode, be32_toNat _ _ _ _, rfl, rfl, flagsExtended_iff _, ?_⟩
  have hdlc : (dataField (unesc body) (flagsDlc (flagsField (unesc body)))).length =
      flagsDlc (flagsField (unesc body)) := by
    rw [dataField, List.length_take, List.length_drop]
    omega
  exact hdlc

end Sys2Proof.Machine
end

section
/-! FEED on the two classes of bytes (42_reassembler.md R111 to R114): the exact transition where the class and `armed` fix
it, and that no event but RESET disarms. -/

namespace Sys2Proof.Machine

variable {r : Rsm} {cap : Option Nat} {b : Byte}

theorem Rsm.feedStart_of_collecting (harmed : r.armed = true) (hbuf : r.buf ≠ []) :
    r.feedStart = ({ buf := [], armed := true }, some (START_BYTE :: r.buf)) := by
  obtain ⟨-, -, h⟩ | ⟨hunarmed | hempty, -⟩ := r.feedStart_cases
  · exact h
  · rw [harmed] at hunarmed; cases hunarmed
  · exact absurd hempty hbuf

/-- A delimiter leads to SYNC from everywhere: only what is emitted depends on the state (R111, R112). -/
theorem Rsm.feedStart_fst (r : Rsm) : r.feedStart.1 = { buf := [], armed := true } := by
  obtain ⟨-, -, h⟩ | ⟨-, h⟩ := r.feedStart_cases <;> rw [h]

theorem Rsm.feedData_of_unarmed (h : r.armed = false) : r.feedData cap b = (r, none) := by
  obtain ⟨harmed, -, -⟩ | ⟨-, hdrop⟩ := r.feedData_cases cap b
  · rw [h] at harmed; cases harmed
  · exact hdrop

theorem Rsm.feedData_of_room (harmed : r.armed = true) (hroom : hasRoom cap r.buf.length = true) :
    r.feedData cap b = ({ buf := r.buf ++ [b], armed := true }, none) := by
  obtain ⟨-, -, h⟩ | ⟨hunarmed | hfull, -⟩ := r.feedData_cases cap b
  · exact h
  · rw [harmed] at hunarmed; cases hunarmed
  · rw [hroom] at hfull; cases hfull

theorem Rsm.feed_keeps_armed (cap : Option Nat) (b : Byte) (h : r.armed = true) : (r.feed cap b).1.armed = true := by
  by_cases hb : b = START_BYTE
  · rw [hb, Rsm.feed_start, Rsm.feedStart_fst]
  · rw [Rsm.feed_data cap r hb]
    obtain ⟨-, -, hkept⟩ | ⟨-, hdrop⟩ := r.feedData_cases cap b
    · rw [hkept]
    · rw [hdrop]; exact h

@[simp] theorem Rsm.flush_armed (r : Rsm) : r.flush.1.armed = r.armed := by
  obtain ⟨-, h⟩ | ⟨-, h⟩ := r.flush_cases <;> rw [h]

/-- A legal capacity is not 0, so an empty buffer takes a byte (00_scope.md R7). -/
theorem hasRoom_zero_of_legalCap (h : legalCap cap = true) : hasRoom cap 0 = true := by
  cases cap with
  | none => rfl
  | some n =>
    have hmin : MIN_CAP ≤ n := (legalCap_iff _).mp h n rfl
    exact decide_eq_true (Nat.lt_of_lt_of_le (by decide) hmin)

end Sys2Proof.Machine
end

section
/-! FEED as an instruction (42_reassembler.md R110), and which instructions can write `armed` (R114). -/

namespace Sys2Proof.Machine

theorem exec_feed (b : Byte) (s : State) :
    exec (.feed b) s = .next (returnCandidate s (s.rsm.feed s.config.rsmCap b)) := rfl

/-- The row FEED.start and FEED of the delimiter are one event (R111, R112). -/
theorem exec_delimiter {i : Instr} (hi : i ∈ [Instr.feedStart, .feed START_BYTE]) (s : State) :
    exec i s = .next (returnCandidate s s.rsm.feedStart) := by
  obtain rfl | rfl := List.mem_pair.mp hi
  · rfl
  · rw [exec_feed, Rsm.feed_start]

/-- The row FEED.data and FEED of a byte of its class are one event (R113, R114). -/
theorem exec_dataByte {i : Instr} {b : Byte} (hb : b ≠ START_BYTE) (hi : i ∈ [Instr.feedData b, .feed b]) (s : State) :
    exec i s = .next (returnCandidate s (s.rsm.feedData s.config.rsmCap b)) := by
  rw [← Rsm.feed_data _ _ hb]
  obtain rfl | rfl := List.mem_pair.mp hi <;> rfl

/-- Everything an instruction other than RESET can do to the reassembler: nothing, one FEED, or one FLUSH. -/
theorem exec_rsm_cases {i : Instr} {s t : State} (h : exec i s = .next t) (hi : i ≠ .reset) :
    t.rsm = s.rsm ∨ (∃ b, t.rsm = (s.rsm.feed s.config.rsmCap b).1) ∨ t.rsm = s.rsm.flush.1 := by
  cases huses : i.usesReassembler with
  | false =>
    obtain ⟨o, -, hexec⟩ | ⟨_, huses', -⟩ | ⟨_, huses', -⟩ | ⟨hreset, -⟩ := exec_cases i s
    · rw [hexec] at h; cases h; exact .inl rfl
    · rw [huses] at huses'; cases huses'
    · rw [huses] at huses'; cases huses'
    · exact absurd hreset hi
  | true =>
    cases i with
    | feedStart =>
      rw [exec_delimiter List.mem_cons_self] at h
      cases h
      exact .inr (.inl ⟨START_BYTE, by rw [Rsm.feed_start]; rfl⟩)
    | feedData b => cases h; exact .inr (.inl ⟨b, rfl⟩)
    | feed b => cases h; exact .inr (.inl ⟨b, rfl⟩)
    | rxByte b => cases h; exact .inr (.inl ⟨b, rfl⟩)
    | flush => cases h; exact .inr (.inr rfl)
    | rxFlush => cases h; exact .inr (.inr rfl)
    | reset => exact absurd rfl hi
    | _ => cases huses

theorem exec_keeps_armed {i : Instr} {s t : State} (h : exec i s = .next t) (hi : i ≠ .reset)
    (harmed : s.rsm.armed = true) : t.rsm.armed = true := by
  obtain hsame | ⟨b, hfeed⟩ | hflush := exec_rsm_cases h hi
  · rw [hsame]; exact harmed
  · rw [hfeed]; exact Rsm.feed_keeps_armed _ b harmed
  · rw [hflush, Rsm.flush_armed]; exact harmed

/-- Settles O33: a byte before the first delimiter leaves FEED's state as it is, a delimiter arms from everywhere, and every
instruction but RESET keeps `armed`. -/
theorem unarmedBytesAreDiscarded : Obligations.UnarmedBytesAreDiscarded := by
  refine ⟨fun b s hb hunarmed i hi => ?_, fun s => ?_, fun i s t h harmed hunarmed => ?_⟩
  · rw [exec_dataByte hb hi, Rsm.feedData_of_unarmed hunarmed]
    rfl
  · refine ⟨_, exec_delimiter (List.mem_cons_of_mem _ List.mem_cons_self) s, ?_⟩
    rw [returnCandidate_rsm, Rsm.feedStart_fst]
  · by_contra hi
    rw [exec_keeps_armed h hi harmed] at hunarmed
    cases hunarmed

end Sys2Proof.Machine
end

section
/-! FEED over a sequence of bytes (42_reassembler.md R110, 20_memory.md R33): the program is the reassembler's own run. -/

namespace Sys2Proof.Machine

/-- FEED over a sequence answers, byte by byte, what the reassembler's run over the same events answers. -/
theorem performAll_pseudoFeedSeq (bs : List Byte) (s : State) :
    ∃ t, performAll (pseudoFeedSeq bs) s = .next t ∧
      t.outputs = s.outputs ++ (s.rsm.run s.config.rsmCap (bs.map .feed)).2.map .candidate := by
  induction bs generalizing s with
  | nil => exact ⟨s, rfl, by simp⟩
  | cons b bs ih =>
    obtain ⟨t, hrun, hout⟩ := ih (returnCandidate s (s.rsm.feed s.config.rsmCap b))
    exact ⟨t, hrun, by simpa [Rsm.event] using hout⟩

/-- One delimiter between two packets is enough: it ends the first and opens the second (R111). -/
theorem Rsm.run_of_collecting {r : Rsm} {cap : Option Nat} {b : Byte} (harmed : r.armed = true) (hbuf : r.buf ≠ [])
    (hcap : legalCap cap = true) (hb : b ≠ START_BYTE) :
    (r.run cap ([START_BYTE, b, START_BYTE].map .feed)).2 =
      [some (START_BYTE :: r.buf), none, some [START_BYTE, b]] := by
  have closes : r.feed cap START_BYTE = ({ buf := [], armed := true }, some (START_BYTE :: r.buf)) := by
    rw [Rsm.feed_start, Rsm.feedStart_of_collecting harmed hbuf]
  have collects : Rsm.feed cap { buf := [], armed := true } b = ({ buf := [b], armed := true }, none) := by
    rw [Rsm.feed_data _ _ hb, Rsm.feedData_of_room rfl (hasRoom_zero_of_legalCap hcap)]
    rfl
  have closesNext : Rsm.feed cap { buf := [b], armed := true } START_BYTE =
      ({ buf := [], armed := true }, some [START_BYTE, b]) := by
    rw [Rsm.feed_start, Rsm.feedStart_of_collecting rfl (List.cons_ne_nil b [])]
  simp [Rsm.event, closes, collects, closesNext]

/-- Settles O31: the delimiter's event is the same as row and as operation; the second packet is the reassembler's run over
three bytes. -/
theorem delimiterClosesACandidate : Obligations.DelimiterClosesACandidate := by
  refine fun s harmed hbuf => ⟨fun i hi => ?_, fun b hlegal hb => ?_⟩
  · rw [exec_delimiter hi, Rsm.feedStart_of_collecting harmed hbuf]
    rfl
  · obtain ⟨hcap, -⟩ := (config_legal_iff _).mp hlegal
    obtain ⟨t, hrun, hout⟩ := performAll_pseudoFeedSeq [START_BYTE, b, START_BYTE] s
    rw [Rsm.run_of_collecting harmed hbuf hcap hb] at hout
    exact ⟨t, hrun, hout⟩

end Sys2Proof.Machine
end

section
/-! Which check of the codec answers which failure (60_exceptions.md R134, R135): `FrameTooLarge` is ENCODE's alone,
`MalformedStart` that of DECODE's check (1) alone. -/

namespace Sys2Proof.Machine

open Sys2Proof.Claims (returning)

/-- The result an instruction returns can be read off the state it leaves. -/
theorem next_returning_inj (s : State) (o o' : Output) :
    (.next (returning s o) : Host.Outcome State Fault Refusal) = .next (returning s o') ↔ o = o' := by
  simp [returning]

theorem exec_encode (c : Command) (canId : CanId) (extended : Bool) (data : List Byte) (s : State) :
    exec (.encode c canId extended data) s = .next (returning s (.encoded (encodeFrame c canId extended data))) := rfl

theorem exec_decode (raw : List Byte) (s : State) :
    exec (.decode raw) s = .next (returning s (.decoded (decodePacket raw))) := by
  rw [← decodePacketAt_eq s.config.csumPos]
  rfl

theorem encodeFrame_eq_frameTooLarge_iff (c : Command) (canId : CanId) (extended : Bool) (data : List Byte) :
    encodeFrame c canId extended data = .err .frameTooLarge ↔ MAX_DATA < data.length := by
  obtain ⟨hlong, h⟩ | ⟨hfits, h⟩ := encodeFrame_cases c canId extended data
  · simp [h, hlong]
  · simpa [h] using hfits

/-- The codes of R132 are the only legal ones (00_scope.md R7, D14). -/
theorem status_of_legal {c : Config} (h : c.legal = true) : c.status = .fixed := by
  obtain ⟨-, -, hstatus, -⟩ := (config_legal_iff c).mp h
  exact hstatus

/-- DECODE's checks (2) to (6) answer neither check (1)'s failure nor ENCODE's (R131). -/
theorem decodePayload_err_ne {p : List Byte} {k : Failure} (h : decodePayload .atDlc p = .err k) :
    k ≠ .malformedStart ∧ k ≠ .frameTooLarge := by
  obtain ⟨-, hres⟩ | ⟨-, -, hres⟩ | ⟨-, -, -, hres⟩ | ⟨c, -, -, -, hres⟩ := decodePayload_cases p
  · rw [hres] at h; cases h; decide
  · rw [hres] at h; cases h; decide
  · rw [hres] at h; cases h; decide
  · obtain ⟨-, hbody⟩ | ⟨-, -, hbody⟩ | ⟨-, -, hbody⟩ := decodeBody_cases c p
    · rw [hres, hbody] at h; cases h; decide
    · rw [hres, hbody] at h; cases h; decide
    · rw [hres, hbody] at h; cases h

theorem decodePacket_eq_malformedStart_iff (raw : List Byte) :
    decodePacket raw = .err .malformedStart ↔ raw.head? ≠ some START_BYTE := by
  cases raw with
  | nil => simp
  | cons b body =>
    by_cases hb : b = START_BYTE
    · subst hb
      rw [decodePacket_start]
      exact ⟨fun h => absurd rfl (decodePayload_err_ne h).1, fun h => absurd rfl h⟩
    · simp [decodePacket_bad_start hb, hb]

theorem decodePacket_ne_frameTooLarge (raw : List Byte) : decodePacket raw ≠ .err .frameTooLarge := by
  intro h
  by_cases hstart : raw.head? = some START_BYTE
  · obtain ⟨body, rfl⟩ := List.head?_eq_some_iff.mp hstart
    rw [decodePacket_start] at h
    exact (decodePayload_err_ne h).2 rfl
  · rw [(decodePacket_eq_malformedStart_iff raw).mpr hstart] at h
    cases h

end Sys2Proof.Machine
end

section
/-! What a received result can be (42_reassembler.md R121, R122): every candidate passes DECODE's check (1), so
`MalformedStart` and `FrameTooLarge` never reach the receiver (60_exceptions.md R134, R135). -/

namespace Sys2Proof.Machine

/-- Whatever the event, a candidate begins with the delimiter the emission supplies (42_reassembler.md R117). -/
theorem Rsm.event_candidate_start {r : Rsm} {cap : Option Nat} {e : RsmEvent} {raw : List Byte}
    (h : (r.event cap e).2 = some raw) : ∃ body, raw = START_BYTE :: body := by
  cases e with
  | feed b =>
    by_cases hb : b = START_BYTE
    · rw [Rsm.event, hb, Rsm.feed_start] at h
      obtain ⟨-, -, hres⟩ | ⟨-, hres⟩ := r.feedStart_cases <;> rw [hres] at h <;> cases h
      exact ⟨_, rfl⟩
    · rw [Rsm.event, Rsm.feed_data cap r hb] at h
      obtain ⟨-, -, hres⟩ | ⟨-, hres⟩ := r.feedData_cases cap b <;> rw [hres] at h <;> cases h
  | flush =>
    rw [Rsm.event] at h
    obtain ⟨-, hres⟩ | ⟨-, hres⟩ := r.flush_cases <;> rw [hres] at h <;> cases h
    exact ⟨_, rfl⟩
  | reset => cases h

/-- An operation outside the RX agent's returns a result of another type than RXBYTE's and RXFLUSH's (30_encoding.md R58). -/
theorem exec_returns_not_received {i : Instr} (hi : i.usesReassembler = false) (s : State) :
    ∃ o, exec i s = .next (s.emit o) ∧ ∀ r, o ≠ .received r := by
  have carry (c : Command) (form : CommandForm) :
      ∃ o, (.next (carryCommand c form s) : Host.Outcome State Fault Refusal) = .next (s.emit o) ∧
        ∀ r, o ≠ .received r := by
    obtain ⟨_, _, _, -, h⟩ | ⟨_, -, h⟩ := carryCommand_cases c form s <;> exact ⟨_, congrArg _ h, nofun⟩
  cases i with
  | canSend f | heartbeat f | ack f | nack f | deviceInfo f | ping f | configGet f | configSet f | resetCommand f
  | setFilter f | clearFilter f => exact carry _ f
  | escEscape | escPass | unescPass | esc | escSeq | unesc | csum | encode | decode => exact ⟨_, rfl, nofun⟩
  | unescLead x => cases x <;> exact ⟨_, rfl, nofun⟩
  | feedStart | feedData | feed | flush | rxByte | rxFlush | reset => cases hi

/-- A received result is what one event's candidate is returned as (42_reassembler.md R121, R122). -/
theorem exec_received_of_event {i : Instr} {s t : State} {r : RxResult} (h : exec i s = .next t)
    (hout : t.outputs = s.outputs ++ [.received r]) :
    ∃ e, r = receiveCandidate s.config.csumPos (s.rsm.event s.config.rsmCap e).2 := by
  obtain ⟨_, huses, -⟩ | ⟨e, -, -, hexec⟩ | ⟨e, -, -, hexec⟩ | ⟨-, hexec⟩ := exec_cases i s
  · obtain ⟨o, hexec, hother⟩ := exec_returns_not_received huses s
    rw [hexec] at h; cases h
    exact absurd (by simpa using hout) (hother r)
  · rw [hexec] at h; cases h
    simp at hout
  · rw [hexec] at h; cases h
    exact ⟨e, by simpa using hout.symm⟩
  · rw [hexec] at h; cases h
    simp at hout

/-- A dropped candidate has passed check (1), so its failure is one of checks (2) to (6) (R135). -/
theorem exec_dropped_of_payload {i : Instr} {s t : State} {k : Failure} (h : exec i s = .next t)
    (hout : t.outputs = s.outputs ++ [.received (.dropped k)]) :
    ∃ body, decodePayload .atDlc (unesc body) = .err k := by
  obtain ⟨e, he⟩ := exec_received_of_event h hout
  obtain ⟨-, hres⟩ | ⟨_, _, -, -, hres⟩ | ⟨raw, k', hcand, hdec, hres⟩ :=
    receiveCandidate_cases s.config.csumPos (s.rsm.event s.config.rsmCap e).2
  · rw [hres] at he; cases he
  · rw [hres] at he; cases he
  · rw [hres] at he; cases he
    obtain ⟨body, rfl⟩ := Rsm.event_candidate_start hcand
    exact ⟨body, by rw [← decodePacket_start, hdec]⟩

/-- Settles O14: ENCODE's one check is the length; DECODE's failures, and so the receiver's, are other kinds. -/
theorem frameTooLargeExactlyOnLongData : Obligations.FrameTooLargeExactlyOnLongData := by
  refine ⟨fun c canId extended data s => ?_, fun raw s h => ?_, fun i s t h hout => ?_, fun c hlegal => ?_⟩
  · rw [exec_encode, next_returning_inj, Output.encoded.injEq]
    exact encodeFrame_eq_frameTooLarge_iff c canId extended data
  · rw [exec_decode, next_returning_inj, Output.decoded.injEq] at h
    exact decodePacket_ne_frameTooLarge raw h
  · obtain ⟨body, hdec⟩ := exec_dropped_of_payload h hout
    exact (decodePayload_err_ne hdec).2 rfl
  · rw [status_of_legal hlegal]
    rfl

/-- Settles O17: check (1) is the only one that looks at the first byte, and every candidate begins with the delimiter. -/
theorem malformedStartExactlyOnBadFirstByte : Obligations.MalformedStartExactlyOnBadFirstByte := by
  refine ⟨fun raw s => ?_, fun i s t h hout => ?_, fun c hlegal => ?_⟩
  · rw [exec_decode, next_returning_inj, Output.decoded.injEq]
    exact decodePacket_eq_malformedStart_iff raw
  · obtain ⟨body, hdec⟩ := exec_dropped_of_payload h hout
    exact (decodePayload_err_ne hdec).1 rfl
  · rw [status_of_legal hlegal]
    rfl

end Sys2Proof.Machine
end

section
/-! What every instruction does, uniformly in the state (60_exceptions.md R130, 70_reset_and_hazards.md R157): an operation
outside the RX agent's has one result of its own, the RX agent's are one event each. -/

namespace Sys2Proof.Machine

/-- The result of an operation outside the RX agent's is the same in every state, and is neither FEED's nor RXBYTE's kind of
result (30_encoding.md R58). -/
theorem exec_codec {i : Instr} (hi : i.usesReassembler = false) :
    ∃ o, (∀ s, exec i s = .next (s.emit o)) ∧ (∀ r, o ≠ .received r) ∧ ∀ c, o ≠ .candidate c := by
  have carry (c : Command) (form : CommandForm) :
      ∃ o, (∀ s, (.next (carryCommand c form s) : Host.Outcome State Fault Refusal) = .next (s.emit o)) ∧
        (∀ r, o ≠ .received r) ∧ ∀ c, o ≠ .candidate c := by
    cases form with
    | send canId extended data => exact ⟨_, fun _ => rfl, nofun, nofun⟩
    | receive rest => exact ⟨.decoded (decodePacket _), fun s => by rw [carryCommand, decodePacketAt_eq], nofun, nofun⟩
  cases i with
  | canSend f | heartbeat f | ack f | nack f | deviceInfo f | ping f | configGet f | configSet f | resetCommand f
  | setFilter f | clearFilter f => exact carry _ f
  | escEscape | escPass | unescPass | esc | escSeq | unesc | csum | encode => exact ⟨_, fun _ => rfl, nofun, nofun⟩
  | unescLead x => cases x <;> exact ⟨_, fun _ => rfl, nofun, nofun⟩
  | decode raw => exact ⟨.decoded (decodePacket raw), exec_decode raw, nofun, nofun⟩
  | feedStart | feedData | feed | flush | rxByte | rxFlush | reset => cases hi

/-- An operation of the RX agent's is RESET, or one event whose candidate it returns, raw or decoded. -/
theorem exec_rxAgent {i : Instr} (hi : i.usesReassembler = true) :
    i = .reset ∨
    (∃ e, ∀ s, exec i s = .next (returnCandidate s (s.rsm.event s.config.rsmCap e))) ∨
    (∃ e, ∀ s, exec i s = .next (returnReceived s (s.rsm.event s.config.rsmCap e))) := by
  cases i with
  | feedStart => exact .inr (.inl ⟨.feed START_BYTE, fun s => by rw [Rsm.event, Rsm.feed_start]; rfl⟩)
  | feedData b | feed b => exact .inr (.inl ⟨.feed b, fun _ => rfl⟩)
  | flush => exact .inr (.inl ⟨.flush, fun _ => rfl⟩)
  | rxByte b => exact .inr (.inr ⟨.feed b, fun _ => rfl⟩)
  | rxFlush => exact .inr (.inr ⟨.flush, fun _ => rfl⟩)
  | reset => exact .inl rfl
  | _ => cases hi

theorem exec_reset (s : State) : exec .reset s = .next (s.setRsm { buf := [], armed := false }) := rfl

/-- Settles O45: the result of `exec_codec` is chosen before the state. -/
theorem pureOperationsIgnoreTheState : Obligations.PureOperationsIgnoreTheState := by
  intro i hi
  obtain ⟨o, hexec, -⟩ := exec_codec hi
  exact ⟨o, hexec⟩

/-- Settles O44: each of the four things an instruction can do keeps the bookkeeping, and all but RESET append one result. -/
theorem everyInstructionCompletes : Obligations.EveryInstructionCompletes := by
  intro i s
  by_cases hreset : i = .reset
  · subst hreset
    exact ⟨_, exec_reset s, rfl, rfl, rfl, .inl ⟨rfl, rfl⟩⟩
  · obtain ⟨o, -, h⟩ | ⟨e, -, -, h⟩ | ⟨e, -, -, h⟩ | ⟨h, -⟩ := exec_cases i s
    · exact ⟨_, h, rfl, rfl, rfl, .inr ⟨hreset, o, rfl⟩⟩
    · exact ⟨_, h, rfl, rfl, rfl, .inr ⟨hreset, _, rfl⟩⟩
    · exact ⟨_, h, rfl, rfl, rfl, .inr ⟨hreset, _, rfl⟩⟩
    · exact absurd h hreset

theorem exec_keeps_config {i : Instr} {s t : State} (h : exec i s = .next t) : t.config = s.config := by
  obtain ⟨u, hu, -, -, hconfig, -⟩ := everyInstructionCompletes i s
  rw [hu] at h
  cases h
  exact hconfig

/-- The reassembler an instruction leaves is the old one, or what one event makes of it. -/
theorem exec_rsm_of_event {i : Instr} {s t : State} (h : exec i s = .next t) :
    t.rsm = s.rsm ∨ ∃ e, t.rsm = (s.rsm.event s.config.rsmCap e).1 := by
  obtain ⟨o, -, hexec⟩ | ⟨e, -, -, hexec⟩ | ⟨e, -, -, hexec⟩ | ⟨-, hexec⟩ := exec_cases i s <;>
    rw [hexec] at h <;> cases h
  · exact .inl rfl
  · exact .inr ⟨e, rfl⟩
  · exact .inr ⟨e, rfl⟩
  · exact .inr ⟨.reset, rfl⟩

theorem exec_keeps_legal {i : Instr} {s t : State} (h : exec i s = .next t) (hs : s.Legal) : t.Legal := by
  rw [State.Legal, exec_keeps_config h]
  obtain hsame | ⟨e, hevent⟩ := exec_rsm_of_event h
  · rw [hsame]; exact hs
  · rw [hevent]; exact Rsm.event_keeps_legal hs e

/-- Settles O2: a step is idle or one instruction on the state with the request taken off, and taking it off touches neither
the reassembler nor the configuration. -/
theorem stepKeepsLegal : Obligations.StepKeepsLegal := by
  intro s t hs h
  obtain ⟨-, rfl⟩ | ⟨q, rest, i, -, -, -, hexec⟩ := performNext_next h
  · exact hs
  · exact exec_keeps_legal hexec hs

/-- Settles O56: a step is idle or one instruction, and no instruction writes the configuration. -/
theorem stepKeepsTheConfiguration : Obligations.StepKeepsTheConfiguration := by
  intro s t h
  obtain ⟨-, rfl⟩ | ⟨q, rest, i, -, -, -, hexec⟩ := performNext_next h
  · rfl
  · rw [exec_keeps_config hexec, State.take_config]

end Sys2Proof.Machine
end

section
/-! The flags byte and the identifier bytes as they are written and read back (30_encoding.md R45, R46): each pair of
functions undoes the other on the values the codec writes. -/

namespace Sys2Proof.Machine

/-- What the flags byte of at most 15 data bytes says, for each of the 32 flags bytes ENCODE writes. -/
theorem flagsByte_fields {n : Nat} (hn : n ≤ MAX_DATA) (extended : Bool) :
    flagsDlc (flagsByte n extended) = n ∧ flagsExtended (flagsByte n extended) = extended ∧
    flagsUnnamed (flagsByte n extended) = 0x00 ∧
    flagsByte n extended = BitVec.ofNat 8 n ||| (if extended then 0x80 else 0x00) ∧
    flagsByte n extended ≠ START_BYTE ∧ flagsByte n extended ≠ ESC_BYTE := by
  have all : ∀ m < MAX_DATA + 1, ∀ x : Bool, flagsDlc (flagsByte m x) = m ∧ flagsExtended (flagsByte m x) = x ∧
      flagsUnnamed (flagsByte m x) = 0x00 ∧ flagsByte m x = BitVec.ofNat 8 m ||| (if x then 0x80 else 0x00) ∧
      flagsByte m x ≠ START_BYTE ∧ flagsByte m x ≠ ESC_BYTE := by decide
  exact all n (Nat.lt_succ_of_le hn) extended

theorem flagsDlc_le (flags : Byte) : flagsDlc flags ≤ MAX_DATA := by
  rw [flagsDlc, BitVec.toNat_and]
  exact Nat.and_le_right

/-- A flags byte with bits 6 to 4 clear is the one ENCODE computes from its fields (R46). -/
theorem flagsByte_flagsDlc {flags : Byte} (h : flagsUnnamed flags = 0x00) :
    flagsByte (flagsDlc flags) (flagsExtended flags) = flags := by
  have all : ∀ x : Byte, flagsUnnamed x = 0x00 → flagsByte (flagsDlc x) (flagsExtended x) = x := by decide
  exact all flags h

theorem byteK_be32 (b0 b1 b2 b3 : Byte) :
    byteK (be32 b0 b1 b2 b3) 0 = b0 ∧ byteK (be32 b0 b1 b2 b3) 1 = b1 ∧ byteK (be32 b0 b1 b2 b3) 2 = b2 ∧
    byteK (be32 b0 b1 b2 b3) 3 = b3 := by
  have h0 := b0.isLt
  have h1 := b1.isLt
  have h2 := b2.isLt
  have h3 := b3.isLt
  refine ⟨?_, ?_, ?_, ?_⟩ <;> apply BitVec.eq_of_toNat_eq <;>
    simp only [byteK, BitVec.toNat_setWidth, BitVec.toNat_ushiftRight, be32_toNat, Nat.shiftRight_eq_div_pow] <;> omega

end Sys2Proof.Machine
end

section
/-! The decoder and the encoder on each kind of row (30_encoding.md sections 1 to 5): reading back what is written, and
writing what was read. -/

namespace Sys2Proof.Machine

theorem wellFormed_ofCommand (c : Command) (form : CommandForm) :
    (Instr.ofCommand c form).wellFormed = form.wellFormed := by cases c <;> rfl

theorem encode_ofCommand (c : Command) (form : CommandForm) :
    encode (.ofCommand c form) = encodeCommand c form := by cases c <;> rfl

/-- A command row's words, in either form, read back as the row. -/
theorem decode_encodeCommand (c : Command) {form : CommandForm} (h : form.wellFormed = true) :
    decode (encodeCommand c form).1 (encodeCommand c form).2 = .instr (.ofCommand c form) := by
  cases form with
  | send canId extended data =>
    have hlen : data.length ≤ MAX_DATA := of_decide_eq_true h
    obtain ⟨hdlc, hext, hunnamed, -⟩ := flagsByte_fields hlen extended
    show decodeTxPayload (header c.code canId extended data) = _
    simp [decodeTxPayload, header, cmdOf_code, hunnamed, hdlc, hext, be32_byteK]
  | receive rest =>
    show decodeRxPayload (VERSION :: c.code :: rest) = _
    simp [decodeRxPayload, cmdOf_code]

theorem decodeEncodePort_encodeEncodePort (c : Command) (canId : CanId) (extended : Bool) (data : List Byte) :
    decodeEncodePort (encodeEncodePort c canId extended data) = .instr (.encode c canId extended data) := by
  cases extended <;> simp [decodeEncodePort, encodeEncodePort, cmdOf_code, be32_byteK]

/-- The mask of the row ESC.escape matches the two special bytes (30_encoding.md R53). -/
theorem and_mask_eq_start_iff (b : Byte) : b &&& 0xFE = START_BYTE ↔ b = START_BYTE ∨ b = ESC_BYTE := by
  have all : ∀ x : Byte, x &&& 0xFE = START_BYTE ↔ x = START_BYTE ∨ x = ESC_BYTE := by decide
  exact all b

/-- Settles O47: the command rows through `decode_encodeCommand`, the byte classes by their class, the operations by their
port. -/
theorem decodeReadsBackEveryInstruction : Obligations.DecodeReadsBackEveryInstruction := by
  intro i hi
  cases i with
  | canSend f => exact decode_encodeCommand .canSend hi
  | heartbeat f => exact decode_encodeCommand .heartbeat hi
  | ack f => exact decode_encodeCommand .ack hi
  | nack f => exact decode_encodeCommand .nack hi
  | deviceInfo f => exact decode_encodeCommand .deviceInfo hi
  | ping f => exact decode_encodeCommand .ping hi
  | configGet f => exact decode_encodeCommand .configGet hi
  | configSet f => exact decode_encodeCommand .configSet hi
  | resetCommand f => exact decode_encodeCommand .reset hi
  | setFilter f => exact decode_encodeCommand .setFilter hi
  | clearFilter f => exact decode_encodeCommand .clearFilter hi
  | escEscape b => exact if_pos ((and_mask_eq_start_iff b).mpr (of_decide_eq_true hi))
  | escPass b =>
    have hplain : b ≠ START_BYTE ∧ b ≠ ESC_BYTE := of_decide_eq_true hi
    exact if_neg fun h => ((and_mask_eq_start_iff b).mp h).elim hplain.1 hplain.2
  | unescLead x => cases x <;> rfl
  | unescPass b => exact if_neg (of_decide_eq_true hi : b ≠ ESC_BYTE)
  | feedData b => exact if_neg (of_decide_eq_true hi : b ≠ START_BYTE)
  | encode c canId extended data => exact decodeEncodePort_encodeEncodePort c canId extended data
  | feedStart | esc | escSeq | unesc | csum | decode | feed | flush | rxByte | rxFlush | reset => rfl

/-- What a payload to be sent must look like to be read, and as what. -/
theorem decodeTxPayload_eq_instr {bs : List Byte} {i : Instr} (h : decodeTxPayload bs = .instr i) :
    ∃ c i0 i1 i2 i3 flags data, bs = VERSION :: c.code :: i0 :: i1 :: i2 :: i3 :: flags :: data ∧
      flagsUnnamed flags = 0x00 ∧ data.length = flagsDlc flags ∧
      i = .ofCommand c (.send (be32 i0 i1 i2 i3) (flagsExtended flags) data) := by
  unfold decodeTxPayload at h
  split at h
  · rename_i v b i0 i1 i2 i3 flags data
    by_cases hver : v = VERSION
    · rw [if_neg (not_not_intro hver)] at h
      cases hcmd : cmdOf b with
      | none => rw [hcmd] at h; cases h
      | some c =>
        rw [hcmd] at h
        simp only at h
        split_ifs at h with hunnamed hlen
        cases h
        exact ⟨c, i0, i1, i2, i3, flags, data, by rw [hver, code_of_cmdOf hcmd], not_not.mp hunnamed,
          not_not.mp hlen, rfl⟩
    · rw [if_pos hver] at h; cases h
  · cases h

/-- Every arrived payload is read, as a command row or as the DECODE of the packet that carries it (log 6). -/
theorem decodeRxPayload_cases (bs : List Byte) :
    decodeRxPayload bs = .instr (.decode (packetOf bs)) ∨
    ∃ c rest, decodeRxPayload bs = .instr (.ofCommand c (.receive rest)) := by
  unfold decodeRxPayload
  split
  · rename_i v b rest
    split_ifs with hver
    · exact .inl rfl
    · cases hcmd : cmdOf b with
      | none => exact .inl rfl
      | some c => exact .inr ⟨c, rest, rfl⟩
  · exact .inl rfl

theorem decodeEncodePort_eq_instr {bs : List Byte} {i : Instr} (h : decodeEncodePort bs = .instr i) :
    ∃ c canId extended data, i = .encode c canId extended data ∧ bs = encodeEncodePort c canId extended data := by
  unfold decodeEncodePort at h
  split at h
  · rename_i b i0 i1 i2 i3 e data
    cases hcmd : cmdOf b with
    | none => rw [hcmd] at h; cases h
    | some c =>
      rw [hcmd] at h
      simp only at h
      obtain ⟨h0, h1, h2, h3⟩ := byteK_be32 i0 i1 i2 i3
      split_ifs at h with hfalse htrue <;> cases h
      · exact ⟨_, _, _, _, rfl, by simp [encodeEncodePort, h0, h1, h2, h3, code_of_cmdOf hcmd, hfalse]⟩
      · exact ⟨_, _, _, _, rfl, by simp [encodeEncodePort, h0, h1, h2, h3, code_of_cmdOf hcmd, htrue]⟩
  · cases h

theorem decodeOneByte_eq_instr {port : Port} {mk : Byte → Instr} {bs : List Byte} {i : Instr}
    (h : decodeOneByte port mk bs = .instr i) : ∃ b, bs = [b] ∧ i = mk b := by
  unfold decodeOneByte at h
  split at h <;> cases h
  exact ⟨_, rfl, rfl⟩

theorem decodeNoByte_eq_instr {port : Port} {j : Instr} {bs : List Byte} {i : Instr}
    (h : decodeNoByte port j bs = .instr i) : bs = [] ∧ i = j := by
  unfold decodeNoByte at h
  split at h <;> cases h
  exact ⟨rfl, rfl⟩

/-- The three byte-class ports read exactly the operands of their rows' classes. -/
theorem decodePayloadByte_eq_instr {bs : List Byte} {i : Instr} (h : decodePayloadByte bs = .instr i) :
    i.wellFormed = true ∧ encode i = (.payloadByte, bs) := by
  unfold decodePayloadByte at h
  split at h
  · rename_i b
    split_ifs at h with hmask <;> cases h <;> rw [and_mask_eq_start_iff] at hmask
    · exact ⟨decide_eq_true hmask, rfl⟩
    · exact ⟨decide_eq_true (not_or.mp hmask), rfl⟩
  · cases h

theorem decodeBodyByte_eq_instr {bs : List Byte} {i : Instr} (h : decodeBodyByte bs = .instr i) :
    i.wellFormed = true ∧ encode i = (.bodyByte, bs) := by
  unfold decodeBodyByte at h
  split at h
  · split_ifs at h with hlead <;> cases h
    · exact ⟨rfl, by rw [hlead]; rfl⟩
    · exact ⟨decide_eq_true hlead, rfl⟩
  · split_ifs at h with hlead
    cases h
    exact ⟨rfl, by rw [hlead]; rfl⟩
  · cases h

theorem decodeStreamByte_eq_instr {bs : List Byte} {i : Instr} (h : decodeStreamByte bs = .instr i) :
    i.wellFormed = true ∧ encode i = (.streamByte, bs) := by
  unfold decodeStreamByte at h
  split at h
  · split_ifs at h with hstart <;> cases h
    · exact ⟨rfl, by rw [hstart]; rfl⟩
    · exact ⟨decide_eq_true hstart, rfl⟩
  · cases h

/-- A payload to be sent is written back byte by byte: its flags are those ENCODE computes and its length is declared. -/
theorem encode_of_decodeTxPayload {bs : List Byte} {i : Instr} (h : decodeTxPayload bs = .instr i) :
    i.wellFormed = true ∧ encode i = (.txPayload, bs) := by
  obtain ⟨c, i0, i1, i2, i3, flags, data, rfl, hunnamed, hlen, rfl⟩ := decodeTxPayload_eq_instr h
  obtain ⟨h0, h1, h2, h3⟩ := byteK_be32 i0 i1 i2 i3
  rw [wellFormed_ofCommand, encode_ofCommand]
  refine ⟨decide_eq_true (hlen ▸ flagsDlc_le flags), ?_⟩
  simp [encodeCommand, header, h0, h1, h2, h3, hlen, flagsByte_flagsDlc hunnamed]

/-- Settles O48: port by port; only the arrived payloads' port reads bytes it would not write. -/
theorem decodedInstructionsAreWellFormed : Obligations.DecodedInstructionsAreWellFormed := by
  intro port bs i h
  cases port with
  | txPayload => exact (encode_of_decodeTxPayload h).imp_right fun he _ => he
  | rxPayload =>
    refine ⟨?_, fun hport => absurd rfl hport⟩
    obtain hrx | ⟨c, rest, hrx⟩ := decodeRxPayload_cases bs
    · cases hrx.symm.trans h; rfl
    · cases hrx.symm.trans h; exact wellFormed_ofCommand c _
  | payloadByte => exact (decodePayloadByte_eq_instr h).imp_right fun he _ => he
  | bodyByte => exact (decodeBodyByte_eq_instr h).imp_right fun he _ => he
  | streamByte => exact (decodeStreamByte_eq_instr h).imp_right fun he _ => he
  | encode =>
    obtain ⟨c, canId, extended, data, rfl, rfl⟩ := decodeEncodePort_eq_instr h
    exact ⟨rfl, fun _ => rfl⟩
  | esc | feed | rxByte =>
    obtain ⟨b, rfl, rfl⟩ := decodeOneByte_eq_instr h
    exact ⟨rfl, fun _ => rfl⟩
  | flush | rxFlush | reset =>
    obtain ⟨rfl, rfl⟩ := decodeNoByte_eq_instr h
    exact ⟨rfl, fun _ => rfl⟩
  | escSeq | unesc | csum | decode => cases h; exact ⟨rfl, fun _ => rfl⟩

/-- Settles O49: seven closed words. -/
theorem tableWordsDecode : Obligations.TableWordsDecode := by
  refine ⟨?_, ?_, ?_, ?_, ?_, ?_, ?_⟩ <;> decide

end Sys2Proof.Machine
end

section
/-! The laws of UNESC and CSUM over sequences (40_primitives.md R70, R72), and the byte classes as instructions
(30_encoding.md R53). -/

namespace Sys2Proof.Machine

open Sys2Proof.Claims (returning byteAt)

theorem exec_unesc (bs : List Byte) (s : State) : exec (.unesc bs) s = .next (returning s (.bytes (unesc bs))) := rfl

/-- UNESC takes an escaped sequence apart byte by byte and goes on behind it (R70 (a), (d)). -/
theorem unesc_escSeq_append (bs g : List Byte) : unesc (escSeq bs ++ g) = bs ++ unesc g := by
  induction bs with
  | nil => rfl
  | cons b bs ih => rw [escSeq_cons, List.append_assoc, unesc_esc, ih, List.cons_append]

@[simp] theorem unesc_escSeq (bs : List Byte) : unesc (escSeq bs) = bs := by
  simpa using unesc_escSeq_append bs []

/-- Settles O10: both halves are `unesc_escSeq_append`. -/
theorem unescInvertsEscSeq : Obligations.UnescInvertsEscSeq :=
  fun bs g => ⟨unesc_escSeq bs, unesc_escSeq_append bs g⟩

@[simp] theorem csum_append (bs ds : List Byte) : csum (bs ++ ds) = csum bs + csum ds := by
  induction bs with
  | nil => simp
  | cons b bs ih => rw [List.cons_append, csum_cons, csum_cons, ih, BitVec.add_assoc]

theorem csum_perm {bs ds : List Byte} (h : bs.Perm ds) : csum bs = csum ds := by
  rw [csum_eq_ofNat_sum, csum_eq_ofNat_sum, (h.map BitVec.toNat).sum_eq]

/-- Only the changed byte's summand differs, and addition cancels (R72 (c)). -/
theorem csum_set_ne {bs : List Byte} {i : Nat} {b : Byte} (hi : i < bs.length) (hb : bs[i] ≠ b) :
    csum (bs.set i b) ≠ csum bs := by
  have hsplit : csum bs = csum (bs.take i) + (bs[i] + csum (bs.drop (i + 1))) := by
    rw [← csum_cons, ← csum_append, ← List.drop_eq_getElem_cons hi, List.take_append_drop]
  rw [List.set_eq_take_append_cons_drop, if_pos hi, csum_append, csum_cons, hsplit]
  simpa using hb.symm

/-- Settles O9: the three laws by `csum_append`, `csum_perm` and `csum_set_ne`. -/
theorem csumLaws : Obligations.CsumLaws := by
  refine ⟨csum_append, fun bs ds => csum_perm, fun bs i b hi hb => csum_set_ne hi ?_⟩
  rwa [byteAt, List.getD_eq_getElem bs 0x00 hi] at hb

/-- Settles O7: the equations of `unesc` case by case. -/
theorem unescReadsLeftToRight : Obligations.UnescReadsLeftToRight :=
  ⟨exec_unesc, unesc_nil, unesc_lead_last, unesc_lead, fun _ bs hb => unesc_plain hb bs⟩

/-- Settles O5: each class's row is its operation's equation on an operand of the class. -/
theorem byteClassesActAsTheirOperation : Obligations.ByteClassesActAsTheirOperation := by
  refine ⟨fun b s special => ⟨rfl, ?_⟩, fun b s hstart hlead => ⟨rfl, ?_⟩, fun x s => ⟨rfl, ?_⟩,
    fun s => ⟨rfl, rfl⟩, fun b s hlead => ⟨rfl, ?_⟩⟩
  · rw [exec_esc, esc_of_special special]; rfl
  · rw [exec_esc, esc_of_plain hstart hlead]; rfl
  · exact congrArg (fun o => Host.Outcome.next (returning s (.bytes o))) (unesc_lead x []).symm
  · exact congrArg (fun o => Host.Outcome.next (returning s (.bytes o))) (unesc_plain hlead []).symm

end Sys2Proof.Machine
end

section
/-! DECODE of a payload that begins with a header ENCODE wrote, whatever follows it (41_codec.md laws (a), (b), (e)): only
the byte after the header decides. -/

namespace Sys2Proof.Machine

/-- The frame DECODE reads from what ENCODE wrote (41_codec.md law (a)). -/
def frameOf (c : Command) (canId : CanId) (extended : Bool) (data : List Byte) : Frame :=
  { command := c, canId := canId, data := data, extended := extended, flags := flagsByte data.length extended }

variable (c : Command) (canId : CanId) (extended : Bool) (data g : List Byte)

theorem versionField_header : versionField (header c.code canId extended data ++ g) = VERSION := rfl

theorem canIdField_header : canIdField (header c.code canId extended data ++ g) = canId := be32_byteK canId

theorem flagsField_header :
    flagsField (header c.code canId extended data ++ g) = flagsByte data.length extended := rfl

theorem dataField_header : dataField (header c.code canId extended data ++ g) data.length = data := by
  simp [dataField, header]

theorem take_header : (header c.code canId extended data ++ g).take (HDR_LEN + data.length) =
    header c.code canId extended data := by
  rw [← header_length c.code canId extended data, List.take_left]

theorem payloadAt_header (y : Byte) :
    payloadAt (header c.code canId extended data ++ y :: g) (HDR_LEN + data.length) = y := by
  rw [← header_length c.code canId extended data, payloadAt, List.getD_append_right _ _ _ _ (le_refl _), Nat.sub_self,
    List.getD_cons_zero]

variable {data} (hdata : data.length ≤ MAX_DATA)
include hdata

theorem flagsDlc_header : flagsDlc (flagsField (header c.code canId extended data ++ g)) = data.length := by
  rw [flagsField_header]
  exact (flagsByte_fields hdata extended).1

/-- A header alone lacks the checksum byte (R85, R88). -/
theorem decodePayload_header : decodePayload .atDlc (header c.code canId extended data) = .err .truncated := by
  have hdlc := flagsDlc_header c canId extended [] hdata
  rw [List.append_nil] at hdlc
  obtain ⟨-, h⟩ | ⟨-, hver, -⟩ | ⟨-, -, hcmd, -⟩ | ⟨c', -, -, -, h⟩ :=
    decodePayload_cases (header c.code canId extended data)
  · exact h
  · exact absurd rfl hver
  · exact absurd (cmdOf_code c) (by rw [show cmdOf c.code = none from hcmd]; simp)
  · rw [h, decodeBody_eq_truncated_iff, hdlc, header_length]
    exact Nat.lt_succ_self _

/-- A header and one byte: that byte is the checksum, and what follows it takes no part (R89, D8). -/
theorem decodePayload_header_cons (y : Byte) :
    decodePayload .atDlc (header c.code canId extended data ++ y :: g) =
      if csum (header c.code canId extended data) = y then .ok (frameOf c canId extended data)
      else .err .checksumMismatch := by
  have hdlc := flagsDlc_header c canId extended (y :: g) hdata
  have hext : flagsExtended (flagsByte data.length extended) = extended := (flagsByte_fields hdata extended).2.1
  have hfits : HDR_LEN + data.length + 1 ≤ (header c.code canId extended data ++ y :: g).length := by
    rw [List.length_append, header_length, List.length_cons]
    omega
  have hmin : MIN_PAYLOAD ≤ (header c.code canId extended data ++ y :: g).length :=
    Nat.le_trans (Nat.succ_le_succ (Nat.le_add_right HDR_LEN data.length)) hfits
  rw [decodePayload_of_cmdOf_some hmin (versionField_header c canId extended data _)
    (cmdOf_code c)]
  obtain ⟨hshort, -⟩ | ⟨-, hsum, h⟩ | ⟨-, hsum, h⟩ :=
    decodeBody_cases c (header c.code canId extended data ++ y :: g) <;> rw [hdlc] at *
  · exact absurd hshort (Nat.not_lt.mpr hfits)
  · rw [take_header, payloadAt_header] at hsum
    rw [h, if_neg hsum]
  · rw [take_header, payloadAt_header] at hsum
    rw [h, if_pos hsum, canIdField_header, dataField_header, flagsField_header, hext]
    rfl

/-- DECODE of a packet and whatever follows it is the frame that was encoded (laws (a), (b)). -/
theorem decodePacket_packetOf_append :
    decodePacket (packetOf (encodePayload c canId extended data) ++ g) = .ok (frameOf c canId extended data) := by
  show decodePacket (START_BYTE :: (escSeq (header c.code canId extended data ++ [_]) ++ g)) = _
  rw [decodePacket_start, unesc_escSeq_append, List.append_assoc, List.singleton_append,
    decodePayload_header_cons c canId extended _ hdata, if_pos rfl]

omit hdata

/-- The operands of an ENCODE that answered a packet, and the packet. -/
theorem encodeFrame_ok {pkt : List Byte} (h : encodeFrame c canId extended data = .ok pkt) :
    data.length ≤ MAX_DATA ∧ pkt = packetOf (encodePayload c canId extended data) := by
  obtain ⟨-, herr⟩ | ⟨hlen, -⟩ := encodeFrame_cases c canId extended data
  · rw [herr] at h; cases h
  · exact ⟨hlen, eq_packetOf_of_encodeFrame_ok h⟩

end Sys2Proof.Machine
end

section
/-! The laws of DECODE against ENCODE as instructions (41_codec.md laws (a), (b), (e)). -/

namespace Sys2Proof.Machine

/-- Settles O20: DECODE of the packet is `frameOf`, whose flags are those of R46 without the mask. -/
theorem decodeInvertsEncode : Obligations.DecodeInvertsEncode := by
  intro c canId extended data s u hlen
  obtain ⟨hlong, -⟩ | ⟨-, hok⟩ := encodeFrame_cases c canId extended data
  · exact absurd hlen (Nat.not_le.mpr hlong)
  · refine ⟨_, by rw [exec_encode, hok], ?_⟩
    obtain ⟨-, -, -, hflags, -⟩ := flagsByte_fields hlen extended
    have hdec := decodePacket_packetOf_append c canId extended [] hlen
    rw [List.append_nil] at hdec
    rw [exec_decode, hdec, frameOf, hflags]

/-- Settles O21: with and without the bytes behind it, the packet decodes to the same frame. -/
theorem trailingBytesAreIgnored : Obligations.TrailingBytesAreIgnored := by
  intro c canId extended data pkt g s h
  obtain ⟨hlen, rfl⟩ := encodeFrame_ok c canId extended h
  have halone := decodePacket_packetOf_append c canId extended [] hlen
  rw [List.append_nil] at halone
  rw [exec_decode, exec_decode, decodePacket_packetOf_append c canId extended g hlen, halone]

/-- Changing the last wire byte of a packet replaces the last payload byte, or turns it into a dangling lead, which yields
none (40_primitives.md D9). -/
theorem decodePacket_corrupted_last {p front : List Byte} {y last x : Byte}
    (h : packetOf (p ++ [y]) = front ++ [last]) (hx : x ≠ last) :
    decodePacket (front ++ [x]) = decodePayload .atDlc p ∨
    ∃ z, z ≠ y ∧ decodePacket (front ++ [x]) = decodePayload .atDlc (p ++ [z]) := by
  have split {w : List Byte} {l : Byte} (hw : esc y = w ++ [l]) :
      front = START_BYTE :: (escSeq p ++ w) ∧ last = l := by
    have hwire : front ++ [last] = (START_BYTE :: (escSeq p ++ w)) ++ [l] := by
      rw [← h, packetOf, escSeq_append, escSeq_cons, escSeq_nil, List.append_nil, hw]
      simp
    simpa using List.append_inj' hwire rfl
  by_cases hy : y = START_BYTE ∨ y = ESC_BYTE
  · obtain ⟨rfl, rfl⟩ := split (w := [ESC_BYTE]) (esc_of_special hy)
    refine .inr ⟨x ^^^ ESC_XOR, fun hz => hx (by rw [← hz, BitVec.xor_assoc]; simp), ?_⟩
    rw [List.cons_append, decodePacket_start, List.append_assoc, unesc_escSeq_append]
    rfl
  · obtain ⟨hstart, hlead⟩ := not_or.mp hy
    obtain ⟨rfl, rfl⟩ := split (w := []) (esc_of_plain hstart hlead)
    rw [List.cons_append, decodePacket_start, List.append_nil, unesc_escSeq_append]
    by_cases hxlead : x = ESC_BYTE
    · left
      rw [hxlead, unesc_lead_last, List.append_nil]
    · exact .inr ⟨x, hx, by rw [unesc_plain hxlead, unesc_nil]⟩

/-- Settles O22: what is left of the checksum is another byte or no byte. -/
theorem corruptedLastByteFails : Obligations.CorruptedLastByteFails := by
  intro c canId extended data front last x s h hx
  obtain ⟨hlen, hpkt⟩ := encodeFrame_ok c canId extended h
  rw [exec_decode]
  obtain hdec | ⟨z, hz, hdec⟩ := decodePacket_corrupted_last hpkt.symm hx
  · exact ⟨_, by rw [hdec, decodePayload_header c canId extended hlen]⟩
  · exact ⟨_, by rw [hdec, decodePayload_header_cons c canId extended [] hlen, if_neg hz.symm]⟩

end Sys2Proof.Machine
end

section
/-! A single flipped bit on the wire (70_reset_and_hazards.md section 3): what it does to the unescaped payload, and that the
checksum sees it when the length stays. -/

namespace Sys2Proof.Machine

open Sys2Proof.Claims (byteAt declaredLength)

/-- The sum of all bytes but the last, less the last: 0 exactly when the last byte is the checksum of the others. -/
def checksumGap (p : List Byte) : Byte := csum p.dropLast - p.getLastD 0x00

theorem checksumGap_concat (p : List Byte) (y : Byte) : checksumGap (p ++ [y]) = csum p - y := by
  simp [checksumGap]

theorem checksumGap_singleton (b : Byte) : checksumGap [b] = 0x00 - b := rfl

theorem checksumGap_cons (b : Byte) {q : List Byte} (hq : q ≠ []) : checksumGap (b :: q) = b + checksumGap q := by
  obtain ⟨r, y, rfl⟩ := (List.eq_nil_or_concat' q).resolve_left hq
  rw [← List.cons_append, checksumGap_concat, checksumGap_concat, csum_cons]
  bv_omega

/-- The gap sees one changed byte, be it a summand or the checksum (40_primitives.md R72 (c)). -/
theorem checksumGap_cons_ne {b y : Byte} (hy : y ≠ b) (q : List Byte) :
    checksumGap (y :: q) ≠ checksumGap (b :: q) := by
  by_cases hq : q = []
  · subst hq
    rw [checksumGap_singleton, checksumGap_singleton]
    bv_omega
  · rw [checksumGap_cons y hq, checksumGap_cons b hq]
    bv_omega

/-- Bit `k` of byte `j` flipped. -/
def flipBit (wire : List Byte) (j k : Nat) : List Byte := wire.set j (byteAt wire j ^^^ ((1 : Byte) <<< k))

theorem flipBit_append_left {a : List Byte} {j : Nat} (hj : j < a.length) (g : List Byte) (k : Nat) :
    flipBit (a ++ g) j k = flipBit a j k ++ g := by
  rw [flipBit, byteAt, List.getD_append _ _ _ _ hj, List.set_append_left _ _ hj]
  rfl

theorem flipBit_append_right (a g : List Byte) (j k : Nat) :
    flipBit (a ++ g) (a.length + j) k = a ++ flipBit g j k := by
  rw [flipBit, byteAt, List.getD_append_right _ _ _ _ (Nat.le_add_right _ _),
    List.set_append_right _ _ (Nat.le_add_right _ _), Nat.add_sub_cancel_left]
  rfl

theorem xor_bit_ne (b : Byte) {k : Nat} (hk : k < 8) : b ^^^ ((1 : Byte) <<< k) ≠ b := by
  have all : ∀ n < 8, (1 : Byte) <<< n ≠ 0x00 := by decide
  simpa using all k hk

/-- A plain byte that a flip turns into a lead, in front of an escaped byte: the two bytes read are not the two that were
written, and neither their sum nor their difference is (the one flip of 70_reset_and_hazards.md section 3 that keeps the
length and changes two bytes). -/
theorem checksumGap_false_lead {b z : Byte} {k : Nat} (hk : k < 8) (hb : b ^^^ ((1 : Byte) <<< k) = ESC_BYTE)
    (hz : z = START_BYTE ∨ z = ESC_BYTE) (r : List Byte) :
    checksumGap ((ESC_BYTE ^^^ ESC_XOR) :: (z ^^^ ESC_XOR) :: r) ≠ checksumGap (b :: z :: r) := by
  have hb' : b = ESC_BYTE ^^^ ((1 : Byte) <<< k) := by rw [← hb, BitVec.xor_assoc]; simp
  have pairs : ∀ n < 8, ∀ x ∈ [START_BYTE, ESC_BYTE],
      (ESC_BYTE ^^^ ESC_XOR) + (x ^^^ ESC_XOR) ≠ (ESC_BYTE ^^^ ((1 : Byte) <<< n)) + x ∧
      (ESC_BYTE ^^^ ESC_XOR) + (0x00 - (x ^^^ ESC_XOR)) ≠ (ESC_BYTE ^^^ ((1 : Byte) <<< n)) + (0x00 - x) := by decide
  obtain ⟨hsum, hdiff⟩ := pairs k hk z (List.mem_pair.mpr hz)
  rw [← hb'] at hsum hdiff
  rw [checksumGap_cons _ (List.cons_ne_nil _ r), checksumGap_cons _ (List.cons_ne_nil _ r)]
  by_cases hr : r = []
  · subst hr
    exact hdiff
  · rw [checksumGap_cons _ hr, checksumGap_cons _ hr, ← BitVec.add_assoc, ← BitVec.add_assoc]
    simpa using hsum

/-- A flip in an escaped pair: of the lead, which frees the byte behind it and lengthens the payload, or of that byte. -/
theorem checksumGap_flipBit_escaped {b : Byte} (hb : b = START_BYTE ∨ b = ESC_BYTE) {q : List Byte} {j k : Nat}
    (hj : j < (esc b).length) (hk : k < 8) (hlen : (unesc (flipBit (esc b) j k ++ escSeq q)).length = q.length + 1) :
    checksumGap (unesc (flipBit (esc b) j k ++ escSeq q)) ≠ checksumGap (b :: q) := by
  rw [esc_of_special hb] at hj hlen ⊢
  have hmate : b ^^^ ESC_XOR ≠ ESC_BYTE := by obtain rfl | rfl := hb <;> decide
  match j, hj with
  | 0, _ =>
    have hwire : unesc (flipBit [ESC_BYTE, b ^^^ ESC_XOR] 0 k ++ escSeq q) =
        (ESC_BYTE ^^^ ((1 : Byte) <<< k)) :: (b ^^^ ESC_XOR) :: q := by
      rw [flipBit, List.set_cons_zero, List.cons_append, List.singleton_append, byteAt, List.getD_cons_zero,
        unesc_plain (xor_bit_ne ESC_BYTE hk), unesc_plain hmate, unesc_escSeq]
    rw [hwire] at hlen
    simp at hlen
  | 1, _ =>
    have hwire : unesc (flipBit [ESC_BYTE, b ^^^ ESC_XOR] 1 k ++ escSeq q) =
        (b ^^^ ESC_XOR ^^^ ((1 : Byte) <<< k) ^^^ ESC_XOR) :: q := by
      show unesc (ESC_BYTE :: _ :: escSeq q) = _
      rw [unesc_lead, unesc_escSeq]
      rfl
    rw [hwire]
    refine checksumGap_cons_ne (fun h => xor_bit_ne (b ^^^ ESC_XOR) hk ?_) q
    conv_rhs => rw [← h]
    rw [BitVec.xor_assoc _ ESC_XOR ESC_XOR]
    simp

/-- A flip of a plain byte: into another plain byte, or into a lead that swallows a plain byte and shortens the payload, or
into a lead in front of an escaped byte. -/
theorem checksumGap_flipBit_plain {b : Byte} (hb : ¬(b = START_BYTE ∨ b = ESC_BYTE)) {q : List Byte} {j k : Nat}
    (hj : j < (esc b).length) (hk : k < 8) (hlen : (unesc (flipBit (esc b) j k ++ escSeq q)).length = q.length + 1) :
    checksumGap (unesc (flipBit (esc b) j k ++ escSeq q)) ≠ checksumGap (b :: q) := by
  obtain ⟨hstart, hlead⟩ := not_or.mp hb
  rw [esc_of_plain hstart hlead] at hj hlen ⊢
  obtain rfl : j = 0 := Nat.lt_one_iff.mp hj
  rw [show flipBit [b] 0 k ++ escSeq q = (b ^^^ ((1 : Byte) <<< k)) :: escSeq q from rfl] at hlen ⊢
  by_cases hflip : b ^^^ ((1 : Byte) <<< k) = ESC_BYTE
  · rw [hflip] at hlen ⊢
    cases q with
    | nil => simp at hlen
    | cons z r =>
      by_cases hz : z = START_BYTE ∨ z = ESC_BYTE
      · have hmate : z ^^^ ESC_XOR ≠ ESC_BYTE := by obtain rfl | rfl := hz <;> decide
        rw [escSeq_cons, esc_of_special hz, List.cons_append, List.singleton_append, unesc_lead, unesc_plain hmate,
          unesc_escSeq]
        exact checksumGap_false_lead hk hflip hz r
      · obtain ⟨hzstart, hzlead⟩ := not_or.mp hz
        rw [escSeq_cons, esc_of_plain hzstart hzlead, List.singleton_append, unesc_lead, unesc_escSeq] at hlen
        simp at hlen
  · rw [unesc_plain hflip, unesc_escSeq]
    exact checksumGap_cons_ne (xor_bit_ne b hk) q

/-- A flipped bit anywhere in an escaped sequence that keeps the unescaped length moves the checksum gap. -/
theorem checksumGap_flipBit {p : List Byte} {j k : Nat} (hj : j < (escSeq p).length) (hk : k < 8)
    (hlen : (unesc (flipBit (escSeq p) j k)).length = p.length) :
    checksumGap (unesc (flipBit (escSeq p) j k)) ≠ checksumGap p := by
  induction p generalizing j with
  | nil => exact absurd hj (Nat.not_lt_zero j)
  | cons b q ih =>
    rw [escSeq_cons] at hj hlen ⊢
    by_cases hhead : j < (esc b).length
    · rw [flipBit_append_left hhead] at hlen ⊢
      by_cases hb : b = START_BYTE ∨ b = ESC_BYTE
      · exact checksumGap_flipBit_escaped hb hhead hk hlen
      · exact checksumGap_flipBit_plain hb hhead hk hlen
    · obtain ⟨i, rfl⟩ := Nat.exists_eq_add_of_le (Nat.not_lt.mp hhead)
      rw [flipBit_append_right, unesc_esc] at hlen ⊢
      have hi : i < (escSeq q).length := by simpa using hj
      have hrest : (unesc (flipBit (escSeq q) i k)).length = q.length := by simpa using hlen
      have hq : q ≠ [] := by rintro rfl; exact absurd hi (Nat.not_lt_zero i)
      have hq' : unesc (flipBit (escSeq q) i k) ≠ [] := by
        rw [← List.length_pos_iff, hrest]
        exact List.length_pos_of_ne_nil hq
      rw [checksumGap_cons b hq, checksumGap_cons b hq']
      simpa using ih hi hrest

/-- A success of DECODE has passed check (6) (41_codec.md R89). -/
theorem csum_of_decodePayload_ok {p : List Byte} {f : Frame} (h : decodePayload .atDlc p = .ok f) :
    csum (p.take (HDR_LEN + declaredLength p)) = payloadAt p (HDR_LEN + declaredLength p) := by
  obtain ⟨-, hres⟩ | ⟨-, -, hres⟩ | ⟨-, -, -, hres⟩ | ⟨c, -, -, -, hres⟩ := decodePayload_cases p
  · rw [hres] at h; cases h
  · rw [hres] at h; cases h
  · rw [hres] at h; cases h
  · obtain ⟨-, hbody⟩ | ⟨-, -, hbody⟩ | ⟨-, hsum, -⟩ := decodeBody_cases c p
    · rw [hres, hbody] at h; cases h
    · rw [hres, hbody] at h; cases h
    · exact hsum

/-- A payload exactly as long as it declares that decodes has its checksum in the last byte. -/
theorem checksumGap_of_decodePayload_ok {p : List Byte} {f : Frame} (h : decodePayload .atDlc p = .ok f)
    (hlen : p.length = HDR_LEN + declaredLength p + 1) : checksumGap p = 0x00 := by
  have hsum := csum_of_decodePayload_ok h
  obtain ⟨q, y, rfl⟩ := (List.eq_nil_or_concat' p).resolve_left (by rintro rfl; simp at hlen)
  have hq : HDR_LEN + declaredLength (q ++ [y]) = q.length := by
    rw [List.length_append, List.length_singleton] at hlen
    exact (Nat.succ.inj hlen).symm
  rw [hq, List.take_left, payloadAt, List.getD_append_right _ _ _ _ (le_refl _), Nat.sub_self, List.getD_cons_zero] at hsum
  rw [checksumGap_concat, hsum]
  exact BitVec.sub_self y

theorem encodePayload_length (c : Command) (canId : CanId) (extended : Bool) (data : List Byte) :
    (encodePayload c canId extended data).length = HDR_LEN + data.length + 1 := by
  show (header c.code canId extended data ++ [_]).length = _
  rw [List.length_append, header_length]
  rfl

theorem declaredLength_encodePayload (c : Command) (canId : CanId) (extended : Bool) {data : List Byte}
    (h : data.length ≤ MAX_DATA) : declaredLength (encodePayload c canId extended data) = data.length :=
  flagsDlc_header c canId extended [_] h

theorem checksumGap_encodePayload (c : Command) (canId : CanId) (extended : Bool) (data : List Byte) :
    checksumGap (encodePayload c canId extended data) = 0x00 := by
  show checksumGap (header c.code canId extended data ++ [_]) = _
  rw [checksumGap_concat]
  exact BitVec.sub_self _

/-- A flip in the body that keeps the length and does not lower `dlc` leaves `dlc` as it was, so a success would need the gap
that the flip has moved. -/
theorem decodePayload_flipBit_err {c : Command} {canId : CanId} {extended : Bool} {data : List Byte} {j k : Nat}
    (hdata : data.length ≤ MAX_DATA) (hj : j < (escSeq (encodePayload c canId extended data)).length) (hk : k < 8)
    (hlen : (unesc (flipBit (escSeq (encodePayload c canId extended data)) j k)).length =
      (encodePayload c canId extended data).length)
    (hdlc : declaredLength (encodePayload c canId extended data) ≤
      declaredLength (unesc (flipBit (escSeq (encodePayload c canId extended data)) j k))) :
    ∃ kind, decodePayload .atDlc (unesc (flipBit (escSeq (encodePayload c canId extended data)) j k)) = .err kind := by
  cases hres : decodePayload .atDlc (unesc (flipBit (escSeq (encodePayload c canId extended data)) j k)) with
  | err kind => exact ⟨kind, rfl⟩
  | ok f =>
    obtain ⟨-, hfits, -⟩ := decodePayload_eq_ok hres
    rw [declaredLength_encodePayload c canId extended hdata] at hdlc
    have hgap := checksumGap_flipBit hj hk hlen
    rw [checksumGap_encodePayload] at hgap
    refine absurd (checksumGap_of_decodePayload_ok hres (Nat.le_antisymm ?_ hfits)) hgap
    rw [hlen, encodePayload_length]
    omega

/-- Settles O23: a flip of the delimiter fails check (1), one behind it `decodePayload_flipBit_err`. -/
theorem singleBitFlipFails : Obligations.SingleBitFlipFails := by
  intro c canId extended data pkt j k s h hj hk hlen hdlc
  obtain ⟨hdata, rfl⟩ := encodeFrame_ok c canId extended h
  rw [exec_decode]
  cases j with
  | zero => exact ⟨_, by rw [packetOf, List.set_cons_zero, byteAt, List.getD_cons_zero,
      decodePacket_bad_start (xor_bit_ne START_BYTE hk)]⟩
  | succ j =>
    have hflip : (packetOf (encodePayload c canId extended data)).set (j + 1)
        (byteAt (packetOf (encodePayload c canId extended data)) (j + 1) ^^^ ((1 : Byte) <<< k)) =
        START_BYTE :: flipBit (escSeq (encodePayload c canId extended data)) j k := rfl
    rw [hflip] at hlen hdlc ⊢
    rw [packetOf, List.tail_cons, List.tail_cons, unesc_escSeq] at hlen hdlc
    obtain ⟨kind, hres⟩ := decodePayload_flipBit_err hdata (Nat.lt_of_succ_lt_succ hj) hk hlen hdlc
    exact ⟨kind, by rw [decodePacket_start, hres]⟩

end Sys2Proof.Machine
end

section
/-! ENCODE's packet and DECODE's checks (2) and (6) as instructions (41_codec.md R80, R85, R89), and the eleven command rows
in both forms (41_codec.md section The commands; log 5). -/

namespace Sys2Proof.Machine

open Sys2Proof.Claims (returning byteAt declaredLength commandCodes commandRows unsummedPayload)

/-- The payload written out from R41 is the model's header. -/
theorem unsummedPayload_eq_header (code : Byte) (canId : CanId) (extended : Bool) (data : List Byte) :
    unsummedPayload code canId extended data = header code canId extended data := by
  have hlow : byteK canId 3 = canId.setWidth 8 := by simp [byteK]
  rw [header, hlow]
  rfl

theorem commandCodes_eq : commandCodes = allCommands.map fun c => (c, c.code) := rfl

theorem commandRows_eq : commandRows = allCommands.map fun c => (Instr.ofCommand c, c.code) := rfl

/-- A command row sent is ENCODE with its command (log 5). -/
theorem exec_send (c : Command) (canId : CanId) (extended : Bool) (data : List Byte) (s : State) :
    exec (.ofCommand c (.send canId extended data)) s = exec (.encode c canId extended data) s := by
  cases c <;> rfl

/-- A command row arrived is DECODE of the packet that carries it (log 5). -/
theorem exec_receive (c : Command) (rest : List Byte) (s : State) :
    exec (.ofCommand c (.receive rest)) s = exec (.decode (packetOf (VERSION :: c.code :: rest))) s := by
  cases c <;> rfl

/-- ENCODE's two answers, with the payload written out. -/
theorem exec_encode_packet (c : Command) (canId : CanId) (extended : Bool) (data : List Byte) (s : State) :
    (data.length ≤ 15 → exec (.encode c canId extended data) s = .next (returning s (.encoded (.ok
      (0xAA :: escSeq (unsummedPayload c.code canId extended data ++
        [csum (unsummedPayload c.code canId extended data)])))))) ∧
    (15 < data.length → exec (.encode c canId extended data) s =
      .next (returning s (.encoded (.err .frameTooLarge)))) := by
  rw [unsummedPayload_eq_header, exec_encode]
  obtain ⟨hlong, h⟩ | ⟨hfits, h⟩ := encodeFrame_cases c canId extended data
  · exact ⟨fun hle => absurd hle (Nat.not_le.mpr hlong), fun _ => by rw [h]⟩
  · exact ⟨fun _ => by rw [h]; rfl, fun hlt => absurd hfits (Nat.not_le.mpr hlt)⟩

/-- Settles O13: row by row of the command map, `exec_encode_packet`. -/
theorem encodeBuildsThePacket : Obligations.EncodeBuildsThePacket := by
  intro row hrow canId extended data s
  rw [commandCodes_eq] at hrow
  obtain ⟨c, -, rfl⟩ := List.mem_map.mp hrow
  exact exec_encode_packet c canId extended data s

/-- Settles O28: the row is ENCODE with its command. -/
theorem sentCommandIsEncoded : Obligations.SentCommandIsEncoded := by
  intro row hrow canId extended data s
  rw [commandRows_eq] at hrow
  obtain ⟨c, -, rfl⟩ := List.mem_map.mp hrow
  simp only [exec_send]
  exact exec_encode_packet c canId extended data s

/-- Settles O16: check (2) is the first on the unescaped payload. -/
theorem decodeTruncatesShortPayloads : Obligations.DecodeTruncatesShortPayloads := by
  intro body s hshort
  rw [exec_decode_start_eq_iff]
  exact if_pos hshort

/-- Checks (5) and (6) on a payload whose version and command pass: too short, a wrong sum, or the frame (R88 to R90). -/
theorem decodePayload_of_known {p : List Byte} {c : Command} (hver : versionField p = VERSION)
    (hcmd : commandField p = c.code) :
    (p.length < HDR_LEN + declaredLength p + 1 → decodePayload .atDlc p = .err .truncated) ∧
    (HDR_LEN + declaredLength p + 1 ≤ p.length →
      csum (p.take (HDR_LEN + declaredLength p)) ≠ byteAt p (HDR_LEN + declaredLength p) →
      decodePayload .atDlc p = .err .checksumMismatch) ∧
    (HDR_LEN + declaredLength p + 1 ≤ p.length →
      csum (p.take (HDR_LEN + declaredLength p)) = byteAt p (HDR_LEN + declaredLength p) →
      decodePayload .atDlc p = .ok
        { command := c
          canId := canIdField p
          data := dataField p (declaredLength p)
          extended := flagsExtended (flagsField p)
          flags := flagsField p }) := by
  by_cases hmin : p.length < MIN_PAYLOAD
  · have hshort : p.length < HDR_LEN + declaredLength p + 1 :=
      Nat.lt_of_lt_of_le hmin (Nat.succ_le_succ (Nat.le_add_right HDR_LEN _))
    exact ⟨fun _ => if_pos hmin, fun hfits => absurd hshort (Nat.not_lt.mpr hfits),
      fun hfits => absurd hshort (Nat.not_lt.mpr hfits)⟩
  · rw [decodePayload_of_cmdOf_some (Nat.not_lt.mp hmin) hver (hcmd ▸ cmdOf_code c)]
    obtain ⟨hshort, h⟩ | ⟨hfits, hsum, h⟩ | ⟨hfits, hsum, h⟩ := decodeBody_cases c p
    · exact ⟨fun _ => h, fun hfits => absurd hshort (Nat.not_lt.mpr hfits),
        fun hfits => absurd hshort (Nat.not_lt.mpr hfits)⟩
    · exact ⟨fun hshort => absurd hshort (Nat.not_lt.mpr hfits), fun _ _ => h, fun _ heq => absurd heq hsum⟩
    · exact ⟨fun hshort => absurd hshort (Nat.not_lt.mpr hfits), fun _ hne => absurd hsum hne, fun _ _ => h⟩

/-- Settles O18: version, command and length pass, so check (6) decides. -/
theorem decodeChecksTheSumAtDlc : Obligations.DecodeChecksTheSumAtDlc := by
  intro row hrow body s _ hver hcmd hlen
  rw [commandCodes_eq] at hrow
  obtain ⟨c, -, rfl⟩ := List.mem_map.mp hrow
  have hfits : 7 + declaredLength (unesc body) + 1 ≤ (unesc body).length := by omega
  obtain ⟨-, hwrong, hright⟩ := decodePayload_of_known hver hcmd
  simp only [exec_decode_start_eq_iff]
  exact ⟨hwrong hfits, fun hsum => ⟨_, rfl, hright hfits hsum⟩⟩

/-- Settles O29: the payload is version, code and `rest`, so each field of it is one of `rest`, two places earlier. -/
theorem arrivedCommandIsDecoded : Obligations.ArrivedCommandIsDecoded := by
  intro row hrow rest s
  rw [show commandRows.zip (commandCodes.map Prod.fst) = allCommands.map fun c => ((Instr.ofCommand c, c.code), c) from rfl]
    at hrow
  obtain ⟨c, -, rfl⟩ := List.mem_map.mp hrow
  obtain ⟨hshort, hwrong, hright⟩ :=
    decodePayload_of_known (p := VERSION :: c.code :: rest) (c := c) rfl rfl
  obtain ⟨dlc, hdlc⟩ : ∃ d, d = (byteAt rest 4 &&& 0x0F).toNat := ⟨_, rfl⟩
  have hplace : HDR_LEN + declaredLength (VERSION :: c.code :: rest) = 5 + dlc + 2 := by
    show 7 + (byteAt rest 4 &&& 0x0F).toNat = 5 + dlc + 2
    omega
  have hext : flagsExtended (byteAt rest 4) = decide (byteAt rest 4 &&& 0x80 ≠ 0) := by
    rw [Bool.eq_iff_iff, flagsExtended_iff, decide_eq_true_iff]
  rw [hplace] at hshort hwrong hright
  simp only [exec_receive, packetOf, exec_decode, decodePacket_start, unesc_escSeq, next_returning_inj,
    Output.decoded.injEq, ← hdlc, ← hext]
  refine ⟨fun h => hshort ?_, fun hfits hne => hwrong ?_ hne, fun hfits heq => ?_⟩
  · simp only [List.length_cons]; omega
  · simp only [List.length_cons]; omega
  · rw [hright (by simp only [List.length_cons]; omega) heq, hdlc]
    rfl

/-- Settles O30: both forms and DECODE return one result and touch nothing else; the packet is closed. -/
theorem resetCommandDoesNotReset : Obligations.ResetCommandDoesNotReset := by
  refine ⟨fun form s => ?_, fun raw s => ⟨_, exec_decode raw s, rfl⟩, fun s => ?_, rfl⟩
  · obtain ⟨o, hexec, -⟩ := exec_codec (i := .resetCommand form) rfl
    exact ⟨_, hexec s, rfl⟩
  · have hpacket : encodeFrame .reset 0 false [] =
        .ok [0xAA, 0x01, 0x40, 0x00, 0x00, 0x00, 0x00, 0x00, 0x41] := by decide
    rw [pseudoSendCommand, exec_encode, hpacket]

/-- Settles O24: the spec's two packets, evaluated. -/
theorem oneFlipCanSucceed : Obligations.OneFlipCanSucceed := by
  constructor <;> decide

/-- Settles O27: a legal configuration has the codes of R132, and the status output reads them. -/
theorem resultsHaveTheirStatusCodes : Obligations.ResultsHaveTheirStatusCodes := by
  intro s hlegal
  have hstatus := status_of_legal hlegal
  refine ⟨fun row hrow => ?_, fun bs b f c => ?_⟩
  · simp only [State.statusOf, hstatus]
    fin_cases hrow <;> exact ⟨rfl, rfl, rfl⟩
  · simp only [State.statusOf, hstatus]
    exact ⟨rfl, rfl, rfl, rfl, rfl, rfl, rfl⟩

/-- Settles O55: the values of R7 written out; with them fixed, legality is the capacity's. -/
theorem resetTakesTheSpecConfiguration : Obligations.ResetTakesTheSpecConfiguration := by
  refine ⟨rfl, taken_legal, fun n => ?_, rfl⟩
  rw [config_legal_iff, legalCap_iff]
  refine ⟨fun ⟨hcap, _⟩ => hcap n rfl, fun hn => ⟨?_, rfl, rfl, rfl, rfl⟩⟩
  rintro m ⟨⟩
  exact hn

end Sys2Proof.Machine
end

section
/-! The size of a packet (41_codec.md R82, 30_encoding.md section 1): one wire byte for each payload byte and one more for
each special one, of which the checksum is none when all nineteen free bytes are. -/

namespace Sys2Proof.Machine

/-- A byte that ESC escapes. -/
def isSpecial (b : Byte) : Bool := decide (b = START_BYTE ∨ b = ESC_BYTE)

theorem esc_length (b : Byte) : (esc b).length = 1 + if isSpecial b then 1 else 0 := by
  by_cases hb : b = START_BYTE ∨ b = ESC_BYTE
  · rw [esc_of_special hb, show isSpecial b = true from decide_eq_true hb]
    rfl
  · obtain ⟨hstart, hlead⟩ := not_or.mp hb
    rw [esc_of_plain hstart hlead, show isSpecial b = false from decide_eq_false hb]
    rfl

theorem escSeq_length (bs : List Byte) : (escSeq bs).length = bs.length + bs.countP isSpecial := by
  induction bs with
  | nil => rfl
  | cons b bs ih =>
    rw [escSeq_cons, List.length_append, esc_length, ih, List.length_cons, List.countP_cons]
    omega

/-- The four identifier bytes of a payload (30_encoding.md R45). -/
def idBytes (canId : CanId) : List Byte := [byteK canId 0, byteK canId 1, byteK canId 2, byteK canId 3]

theorem isSpecial_eq_false {b : Byte} (h : b ≠ START_BYTE ∧ b ≠ ESC_BYTE) : isSpecial b = false := by
  simp [isSpecial, h]

/-- Of a header only the identifier and the data can need escaping: version, codes and flags are never special. -/
theorem countP_header (c : Command) (canId : CanId) (extended : Bool) {data : List Byte} (h : data.length ≤ MAX_DATA) :
    (header c.code canId extended data).countP isSpecial = (idBytes canId ++ data).countP isSpecial := by
  have hflags : isSpecial (flagsByte data.length extended) = false := by
    obtain ⟨-, -, -, -, hne⟩ := flagsByte_fields h extended
    exact isSpecial_eq_false hne
  have hversion : isSpecial VERSION = false := rfl
  simp [header, idBytes, List.countP_cons, hflags, hversion, isSpecial_eq_false c.code_ne_special]

theorem csum_header (c : Command) (canId : CanId) (extended : Bool) (data : List Byte) :
    csum (header c.code canId extended data) =
      VERSION + c.code + flagsByte data.length extended + csum (idBytes canId ++ data) := by
  simp only [header, idBytes, List.cons_append, List.nil_append, csum_cons]
  ac_rfl

/-- The sum of special bytes: 0xAA each, and one more for each lead among them. -/
theorem csum_of_all_special {bs : List Byte} (h : ∀ b ∈ bs, isSpecial b = true) :
    ∃ m ≤ bs.length, csum bs = BitVec.ofNat 8 (0xAA * bs.length + m) := by
  induction bs with
  | nil => exact ⟨0, le_refl 0, rfl⟩
  | cons b bs ih =>
    obtain ⟨m, hm, hsum⟩ := ih fun x hx => h x (List.mem_cons_of_mem b hx)
    obtain rfl | rfl : b = START_BYTE ∨ b = ESC_BYTE := of_decide_eq_true (h b List.mem_cons_self)
    · refine ⟨m, by rw [List.length_cons]; omega, ?_⟩
      rw [csum_cons, hsum, show START_BYTE = BitVec.ofNat 8 0xAA from rfl, ← BitVec.ofNat_add, List.length_cons]
      congr 1
      omega
    · refine ⟨m + 1, by rw [List.length_cons]; omega, ?_⟩
      rw [csum_cons, hsum, show ESC_BYTE = BitVec.ofNat 8 0xAB from rfl, ← BitVec.ofNat_add, List.length_cons]
      congr 1
      omega

theorem mem_allCommands (c : Command) : c ∈ allCommands := by cases c <;> decide

/-- When all nineteen identifier and data bytes need escaping, the checksum does not (R82). -/
theorem isSpecial_csum_header (c : Command) (canId : CanId) (extended : Bool) {data : List Byte}
    (hlen : data.length = MAX_DATA) (h : ∀ b ∈ idBytes canId ++ data, isSpecial b = true) :
    isSpecial (csum (header c.code canId extended data)) = false := by
  have all : ∀ c ∈ allCommands, ∀ x : Bool, ∀ m < 20,
      isSpecial (VERSION + c.code + flagsByte MAX_DATA x + BitVec.ofNat 8 (0xAA * 19 + m)) = false := by decide
  have hfree : (idBytes canId ++ data).length = 19 := by rw [List.length_append, hlen]; rfl
  obtain ⟨m, hm, hsum⟩ := csum_of_all_special h
  rw [hfree] at hm hsum
  rw [csum_header, hlen, hsum]
  exact all c (mem_allCommands c) extended m (Nat.lt_succ_of_le hm)

/-- At most 19 of a payload's bytes are escaped beside 15 data bytes, and fewer beside fewer (R82). -/
theorem countP_encodePayload_le (c : Command) (canId : CanId) (extended : Bool) {data : List Byte}
    (h : data.length ≤ MAX_DATA) :
    data.length + (encodePayload c canId extended data).countP isSpecial ≤ 34 := by
  have hcount : (encodePayload c canId extended data).countP isSpecial =
      (idBytes canId ++ data).countP isSpecial +
        if isSpecial (csum (header c.code canId extended data)) then 1 else 0 := by
    show (header c.code canId extended data ++ [_]).countP isSpecial = _
    rw [List.countP_append, countP_header c canId extended h, List.countP_singleton]
  have hfree : (idBytes canId ++ data).length = 4 + data.length := by rw [List.length_append]; rfl
  have hle : (idBytes canId ++ data).countP isSpecial ≤ (idBytes canId ++ data).length := List.countP_le_length
  have hmax : MAX_DATA = 15 := rfl
  by_cases hall : data.length = MAX_DATA ∧ (idBytes canId ++ data).countP isSpecial = (idBytes canId ++ data).length
  · obtain ⟨hlen, hspecial⟩ := hall
    rw [hcount, isSpecial_csum_header c canId extended hlen (List.countP_eq_length.mp hspecial)]
    simp only [Bool.false_eq_true, if_false]
    omega
  · split at hcount <;> omega

/-- The packet's size: the delimiter, the payload, and one byte for each escaped one. -/
theorem packetOf_encodePayload_length (c : Command) (canId : CanId) (extended : Bool) (data : List Byte) :
    (packetOf (encodePayload c canId extended data)).length =
      9 + data.length + (encodePayload c canId extended data).countP isSpecial := by
  rw [packetOf, List.length_cons, escSeq_length, encodePayload_length]
  have hhdr : HDR_LEN = 7 := rfl
  omega

theorem packet_length_bounds {c : Command} {canId : CanId} {extended : Bool} {data pkt : List Byte}
    (h : encodeFrame c canId extended data = .ok pkt) : MIN_PACKET ≤ pkt.length ∧ pkt.length ≤ MAX_PACKET := by
  obtain ⟨hdata, rfl⟩ := encodeFrame_ok c canId extended h
  have hcount := countP_encodePayload_le c canId extended hdata
  rw [packetOf_encodePayload_length]
  exact ⟨by show 9 ≤ _; omega, by show _ ≤ 43; omega⟩

/-- Settles O26: `packetOf_encodePayload_length` with the count written as a filter, and two extreme packets. -/
theorem packetSize : Obligations.PacketSize := by
  refine ⟨fun row hrow canId extended data pkt h => ?_, ⟨_, rfl, by decide⟩, ⟨_, rfl, by decide⟩⟩
  rw [commandCodes_eq] at hrow
  obtain ⟨c, -, rfl⟩ := List.mem_map.mp hrow
  refine ⟨?_, packet_length_bounds h⟩
  obtain ⟨-, rfl⟩ := encodeFrame_ok c canId extended h
  rw [packetOf_encodePayload_length, List.countP_eq_length_filter, unsummedPayload_eq_header]
  rfl

/-- Settles O57: UNESC gives back the payload ENCODE built; the packet is bounded by `packet_length_bounds`. -/
theorem encodeRespectsTheConfiguredMaxima : Obligations.EncodeRespectsTheConfiguredMaxima := by
  intro cfg c canId extended data pkt hlegal h
  obtain ⟨-, -, -, hpayload, hpacket⟩ := (config_legal_iff cfg).mp hlegal
  refine ⟨?_, hpacket ▸ (packet_length_bounds h).2⟩
  obtain ⟨hdata, rfl⟩ := encodeFrame_ok c canId extended h
  rw [packetOf, List.tail_cons, unesc_escSeq, encodePayload_length, hpayload]
  show 7 + data.length + 1 ≤ 23
  have hmax : data.length ≤ 15 := hdata
  omega

end Sys2Proof.Machine
end

section
/-! The byte-at-a-time forms (40_primitives.md R69, R73, 41_codec.md R81; log 18): each register holds, after any number of
bytes, what the sequence forms say of the bytes so far. -/

namespace Sys2Proof.Machine

open Sys2Proof.Claims (byteAt declaredLength)

/-- A pending lead is a lead still in front of the input (R69). -/
theorem unescStream_eq (bs : List Byte) :
    unescStream false bs = unesc bs ∧ unescStream true bs = unesc (ESC_BYTE :: bs) := by
  induction bs with
  | nil => exact ⟨rfl, rfl⟩
  | cons b bs ih =>
    obtain ⟨hclear, hpending⟩ := ih
    refine ⟨?_, by rw [unescStream_cons, if_pos rfl, hclear, unesc_lead]⟩
    rw [unescStream_cons, if_neg Bool.false_ne_true]
    by_cases hb : b = ESC_BYTE
    · rw [if_pos hb, hpending, hb]
    · rw [if_neg hb, hclear, unesc_plain hb]

/-- The streaming ENCODE escapes what it is given and then the sum it has added up (R73, R81). -/
theorem encodeStream_eq (acc : Byte) (bs : List Byte) : encodeStream acc bs = escSeq (bs ++ [acc + csum bs]) := by
  induction bs generalizing acc with
  | nil => simp [encodeStream]
  | cons b bs ih => rw [encodeStream, ih, csum_cons, List.cons_append, escSeq_cons, BitVec.add_assoc]

theorem DecodeStream.payloadByte_pending (st : DecodeStream) (p : Bool) (x : Byte) :
    ({ st with pending := p }.payloadByte x) = { st.payloadByte x with pending := p } := by
  unfold DecodeStream.payloadByte
  simp only
  split_ifs <;> rfl

theorem DecodeStream.foldl_payloadByte_agreed (st : DecodeStream) (p : Bool) (xs : List Byte) :
    (xs.foldl DecodeStream.payloadByte { st with pending := p }).agreed =
      (xs.foldl DecodeStream.payloadByte st).agreed := by
  induction xs generalizing st with
  | nil => rfl
  | cons x xs ih => rw [List.foldl_cons, DecodeStream.payloadByte_pending, ih, List.foldl_cons]

/-- The streaming DECODE takes, byte by byte, the payload the streaming UNESC yields. -/
theorem DecodeStream.run_agreed (st : DecodeStream) (bs : List Byte) :
    (st.run bs).agreed = ((unescStream st.pending bs).foldl DecodeStream.payloadByte st).agreed := by
  induction bs generalizing st with
  | nil => rfl
  | cons b bs ih =>
    rw [DecodeStream.run, unescStream]
    obtain ⟨p, x⟩ := unescStep st.pending b
    cases x with
    | none => exact (ih _).trans (DecodeStream.foldl_payloadByte_agreed st p _)
    | some x =>
      refine (ih _).trans ?_
      rw [DecodeStream.payloadByte_pending]
      exact DecodeStream.foldl_payloadByte_agreed (st.payloadByte x) p _

/-- The registers after the payload bytes `p`, said with the sequence forms (R73). -/
def DecodeStream.after (p : List Byte) : DecodeStream :=
  { pending := false
    index := p.length
    acc := csum (p.take (HDR_LEN + declaredLength p))
    dlc := declaredLength p
    agreed :=
      if HDR_LEN + declaredLength p < p.length then
        some (csum (p.take (HDR_LEN + declaredLength p)) == byteAt p (HDR_LEN + declaredLength p))
      else none }

theorem byteAt_concat_of_lt {p : List Byte} {i : Nat} (h : i < p.length) (x : Byte) :
    byteAt (p ++ [x]) i = byteAt p i := List.getD_append _ _ _ _ h

theorem byteAt_concat_length (p : List Byte) (x : Byte) : byteAt (p ++ [x]) p.length = x := by
  rw [byteAt, List.getD_append_right _ _ _ _ (le_refl _), Nat.sub_self, List.getD_cons_zero]

theorem byteAt_of_length_le {p : List Byte} {i : Nat} (h : p.length ≤ i) : byteAt p i = 0x00 :=
  List.getD_eq_default _ _ h

/-- Only payload byte 6 declares a length. -/
theorem declaredLength_concat (p : List Byte) (x : Byte) :
    declaredLength (p ++ [x]) = if p.length = 6 then flagsDlc x else declaredLength p := by
  split_ifs with h
  · rw [declaredLength, ← h, byteAt_concat_length]
    rfl
  · rw [declaredLength, declaredLength]
    obtain hlt | hgt := Nat.lt_or_gt_of_ne h
    · rw [byteAt_of_length_le (p := p) (Nat.le_of_lt hlt), byteAt_of_length_le]
      rw [List.length_append, List.length_singleton]
      exact hlt
    · rw [byteAt_concat_of_lt hgt]

/-- A payload byte before the checksum's place is added, the one at its place compared, a later one ignored (R73). -/
theorem DecodeStream.payloadByte_eq (st : DecodeStream) (x : Byte) {d : Nat}
    (hd : (if st.index = 6 then flagsDlc x else st.dlc) = d) :
    (st.index < HDR_LEN + d →
      st.payloadByte x = { st with index := st.index + 1, dlc := d, acc := st.acc + x }) ∧
    (st.index = HDR_LEN + d → st.payloadByte x = { st with index := st.index + 1, agreed := some (st.acc == x) }) ∧
    (HDR_LEN + d < st.index → st.payloadByte x = { st with index := st.index + 1 }) := by
  subst hd
  refine ⟨fun h => if_pos h, fun h => ?_, fun h => ?_⟩
  · exact (if_neg (Nat.not_lt.mpr (Nat.le_of_eq h.symm))).trans (if_pos h)
  · exact (if_neg (Nat.not_lt.mpr (Nat.le_of_lt h))).trans (if_neg (Nat.ne_of_gt h))

/-- Up to the checksum's place every byte is summed and nothing is compared. -/
theorem DecodeStream.after_of_le {p : List Byte} (h : p.length ≤ HDR_LEN + declaredLength p) :
    DecodeStream.after p =
      { pending := false, index := p.length, acc := csum p, dlc := declaredLength p, agreed := none } := by
  rw [DecodeStream.after, if_neg (Nat.not_lt.mpr h), List.take_of_length_le h]

/-- Behind the checksum's place the verdict is there. -/
theorem DecodeStream.after_of_lt {p : List Byte} (h : HDR_LEN + declaredLength p < p.length) :
    DecodeStream.after p =
      { pending := false, index := p.length, acc := csum (p.take (HDR_LEN + declaredLength p)), dlc := declaredLength p,
        agreed := some (csum (p.take (HDR_LEN + declaredLength p)) == byteAt p (HDR_LEN + declaredLength p)) } := by
  rw [DecodeStream.after, if_pos h]

/-- One more payload byte moves the registers as their meaning says. -/
theorem DecodeStream.after_concat (p : List Byte) (x : Byte) :
    (DecodeStream.after p).payloadByte x = DecodeStream.after (p ++ [x]) := by
  obtain ⟨hadd, hcompare, hignore⟩ :=
    DecodeStream.payloadByte_eq (DecodeStream.after p) x (declaredLength_concat p x).symm
  have hhdr : HDR_LEN = 7 := rfl
  have hlen : (p ++ [x]).length = p.length + 1 := by simp
  obtain hfill | hfull := Nat.lt_or_ge p.length (HDR_LEN + declaredLength (p ++ [x]))
  · have hle : p.length ≤ HDR_LEN + declaredLength p := by
      rw [declaredLength_concat] at hfill
      split_ifs at hfill <;> omega
    rw [hadd hfill, DecodeStream.after_of_le hle, DecodeStream.after_of_le (hlen ▸ hfill), hlen, csum_append]
    simp
  · have hsame : declaredLength p = declaredLength (p ++ [x]) := by
      rw [declaredLength_concat, if_neg (by omega)]
    rw [DecodeStream.after_of_lt (p := p ++ [x]) (by omega), List.take_append_of_le_length hfull, hlen, ← hsame]
    rw [← hsame] at hcompare hignore hfull
    obtain hplace | hpast := Nat.eq_or_lt_of_le hfull
    · rw [hcompare hplace.symm, DecodeStream.after_of_le (Nat.le_of_eq hplace.symm), hplace, byteAt_concat_length,
        List.take_length]
    · rw [hignore hpast, DecodeStream.after_of_lt hpast, byteAt_concat_of_lt hpast]

theorem DecodeStream.foldl_start (p : List Byte) :
    p.foldl DecodeStream.payloadByte DecodeStream.start = DecodeStream.after p := by
  induction p using List.reverseRecOn with
  | nil => rfl
  | append_singleton p x ih => rw [List.foldl_append, ih, List.foldl_cons, List.foldl_nil, DecodeStream.after_concat]

/-- Settles O12: the streaming UNESC and ENCODE by induction on the input, the streaming DECODE by the registers' meaning
after the whole payload. -/
theorem streamingFormsAgree : Obligations.StreamingFormsAgree := by
  refine ⟨fun bs => (unescStream_eq bs).1, fun c canId extended data hlen => ?_, fun body => ?_⟩
  · obtain ⟨hlong, -⟩ | ⟨-, hok⟩ := encodeFrame_cases c canId extended data
    · exact absurd hlen (Nat.not_le.mpr hlong)
    · rw [hok, encodeStream_eq, show (0x00 : Byte) + csum _ = csum _ from BitVec.zero_add _]
      rfl
  · rw [DecodeStream.run_agreed, show DecodeStream.start.pending = false from rfl, (unescStream_eq body).1,
      DecodeStream.foldl_start]
    obtain ⟨d, hd⟩ : ∃ d, d = declaredLength (unesc body) := ⟨_, rfl⟩
    have hcond : (8 ≤ (unesc body).length ∧ 8 + d ≤ (unesc body).length) ↔ 7 + d < (unesc body).length := by omega
    simp only [← hd, hcond]
    subst hd
    rfl

end Sys2Proof.Machine
end

section
/-! FEED, FLUSH and RESET as instructions and the state machine's table (42_reassembler.md R110 to R118,
70_reset_and_hazards.md R156). -/

namespace Sys2Proof.Machine

theorem Rsm.feedStart_of_idle {r : Rsm} (h : r.armed = false ∨ r.buf = []) :
    r.feedStart = ({ buf := [], armed := true }, none) := by
  obtain ⟨harmed, hbuf, -⟩ | ⟨-, hres⟩ := r.feedStart_cases
  · obtain hun | hnil := h
    · exact absurd (harmed.symm.trans hun) Bool.noConfusion
    · exact absurd hnil hbuf
  · exact hres

theorem Rsm.feedData_of_full {r : Rsm} {cap : Option Nat} {b : Byte} (h : hasRoom cap r.buf.length = false) :
    r.feedData cap b = (r, none) := by
  obtain ⟨-, hroom, -⟩ | ⟨-, hres⟩ := r.feedData_cases cap b
  · exact absurd (hroom.symm.trans h) Bool.noConfusion
  · exact hres

theorem Rsm.flush_of_ne_nil {r : Rsm} (h : r.buf ≠ []) :
    r.flush = ({ buf := [], armed := r.armed }, some (START_BYTE :: r.buf)) := by
  obtain ⟨-, hres⟩ | ⟨hnil, -⟩ := r.flush_cases
  · exact hres
  · exact absurd hnil h

theorem Rsm.flush_of_nil {r : Rsm} (h : r.buf = []) : r.flush = (r, none) := by
  obtain ⟨hbuf, -⟩ | ⟨-, hres⟩ := r.flush_cases
  · exact absurd h hbuf
  · exact hres

theorem exec_flush (s : State) : exec .flush s = .next (returnCandidate s s.rsm.flush) := rfl

/-- Settles O1: the reset values, evaluated. -/
theorem resetLeavesHuntState : Obligations.ResetLeavesHuntState := ⟨rfl, rfl, Rsm.legal_empty _ false⟩

/-- Settles O36: RESET writes the reassembler and returns nothing. -/
theorem resetOperationReturnsToHunt : Obligations.ResetOperationReturnsToHunt := exec_reset

/-- Settles O32: the delimiter's event, as row and as operation, in the states that hold no candidate. -/
theorem delimiterOtherwiseArms : Obligations.DelimiterOtherwiseArms := by
  intro s hidle i hi
  rw [exec_delimiter hi, Rsm.feedStart_of_idle hidle]
  rfl

/-- Settles O34: an armed data byte is appended where `hasRoom` says so and dropped otherwise. -/
theorem armedBytesAreCollected : Obligations.ArmedBytesAreCollected := by
  intro b s hb harmed i hi
  rw [exec_dataByte hb hi]
  refine ⟨fun hcap => ?_, fun n hcap => ⟨fun hlt => ?_, fun hle => ?_⟩⟩
  · rw [Rsm.feedData_of_room harmed (by rw [hcap]; rfl)]
    rfl
  · rw [Rsm.feedData_of_room harmed (by rw [hcap]; exact decide_eq_true hlt)]
    rfl
  · rw [Rsm.feedData_of_full (by rw [hcap]; exact decide_eq_false (Nat.not_lt.mpr hle))]
    rfl

/-- After a FLUSH the buffer is empty, so the next one finds nothing (R115). -/
theorem Rsm.flush_buf (r : Rsm) : r.flush.1.buf = [] := by
  obtain ⟨-, h⟩ | ⟨hnil, h⟩ := r.flush_cases <;> rw [h]
  exact hnil

/-- Settles O35: FLUSH on a non-empty and on an empty buffer; the second FLUSH meets an empty one. -/
theorem flushEmitsOnce : Obligations.FlushEmitsOnce := by
  refine fun s => ⟨fun hbuf => ?_, fun hnil => ?_, _, _, exec_flush s, exec_flush _, ?_⟩
  · rw [exec_flush, Rsm.flush_of_ne_nil hbuf]
    rfl
  · rw [exec_flush, Rsm.flush_of_nil hnil]
    rfl
  · rw [returnCandidate_rsm, returnCandidate_rsm, Rsm.flush_of_nil s.rsm.flush_buf]
    exact ⟨rfl, rfl⟩

/-- The three states of R118 as readings of the pair. -/
theorem Rsm.phase_eq_hunt_iff (r : Rsm) : r.phase = some .hunt ↔ r = { buf := [], armed := false } := by
  obtain ⟨_ | ⟨b, buf⟩, _ | _⟩ := r <;> simp [Rsm.phase]

theorem Rsm.phase_eq_sync_iff (r : Rsm) : r.phase = some .sync ↔ r = { buf := [], armed := true } := by
  obtain ⟨_ | ⟨b, buf⟩, _ | _⟩ := r <;> simp [Rsm.phase]

theorem Rsm.phase_eq_collect_iff (r : Rsm) : r.phase = some .collect ↔ r.armed = true ∧ r.buf ≠ [] := by
  obtain ⟨_ | ⟨b, buf⟩, _ | _⟩ := r <;> simp [Rsm.phase]

/-- The events of R118, each as its own operation. -/
theorem Rsm.event_start (cap : Option Nat) (r : Rsm) : r.event cap (.feed START_BYTE) = r.feedStart := Rsm.feed_start cap r

theorem Rsm.event_data (cap : Option Nat) (r : Rsm) {b : Byte} (hb : b ≠ START_BYTE) :
    r.event cap (.feed b) = r.feedData cap b := Rsm.feed_data cap r hb

theorem Rsm.event_flush (cap : Option Nat) (r : Rsm) : r.event cap .flush = r.flush := rfl

theorem Rsm.event_reset (cap : Option Nat) (r : Rsm) :
    r.event cap .reset = ({ buf := [], armed := false }, none) := rfl

/-- A data byte in COLLECT stays there, whether it is kept or dropped (R113, R118). -/
theorem Rsm.feedData_of_collect {r : Rsm} (cap : Option Nat) (b : Byte) (h : r.phase = some .collect) :
    (r.feedData cap b).1.phase = some .collect ∧ (r.feedData cap b).2 = none := by
  obtain ⟨-, -, hres⟩ | ⟨-, hres⟩ := r.feedData_cases cap b <;> rw [hres]
  · exact ⟨(Rsm.phase_eq_collect_iff _).mpr ⟨rfl, by simp⟩, rfl⟩
  · exact ⟨h, rfl⟩

/-- Settles O3: the table's rows, one phase after the other. -/
theorem reassemblerFollowsItsTable : Obligations.ReassemblerFollowsItsTable := by
  intro c r b hlegal hb
  obtain ⟨hcap, -⟩ := (config_legal_iff c).mp hlegal
  have hroom := hasRoom_zero_of_legalCap hcap
  rw [show (0xAA : Byte) = START_BYTE from rfl, Rsm.event_start, Rsm.event_data _ _ hb, Rsm.event_flush, Rsm.event_reset]
  refine ⟨fun hunt => ?_, fun sync => ?_, fun collect => ?_, rfl, rfl⟩
  · obtain rfl := (Rsm.phase_eq_hunt_iff r).mp hunt
    exact ⟨rfl, rfl, rfl, rfl⟩
  · obtain rfl := (Rsm.phase_eq_sync_iff r).mp sync
    rw [Rsm.feedData_of_room rfl hroom]
    exact ⟨rfl, rfl, rfl, rfl⟩
  · obtain ⟨harmed, hbuf⟩ := (Rsm.phase_eq_collect_iff r).mp collect
    obtain ⟨hphase, hnone⟩ := Rsm.feedData_of_collect c.rsmCap b collect
    rw [Rsm.feedStart_of_collecting harmed hbuf, Rsm.flush_of_ne_nil hbuf, harmed]
    exact ⟨rfl, rfl, hphase, hnone, rfl, rfl⟩

end Sys2Proof.Machine
end

section
/-! What DECODE can see of an input (40_primitives.md R70 (e), 42_reassembler.md R120): its first 23 payload bytes, which 46
body bytes always yield. -/

namespace Sys2Proof.Machine

/-- An input twice as long as `k` settles the first `k` bytes UNESC yields, and any longer input yields as many (R70 (e)). -/
theorem unesc_take (bs : List Byte) {k m : Nat} (h : 2 * k ≤ m) :
    (unesc (bs.take m)).take k = (unesc bs).take k ∧ (2 * k ≤ bs.length → k ≤ (unesc bs).length) := by
  induction k generalizing bs m with
  | zero => exact ⟨rfl, fun _ => Nat.zero_le _⟩
  | succ k ih =>
    obtain ⟨m, rfl⟩ := Nat.exists_eq_add_of_le' (show 2 ≤ m by omega)
    match bs with
    | [] => exact ⟨rfl, fun hlen => absurd hlen (by simp)⟩
    | [b] => exact ⟨rfl, fun hlen => absurd hlen (by simp; omega)⟩
    | b :: x :: s =>
      by_cases hb : b = ESC_BYTE
      · obtain ⟨htake, hlen⟩ := ih s (m := m) (by omega)
        rw [hb, List.take_succ_cons, List.take_succ_cons, unesc_lead, unesc_lead]
        refine ⟨congrArg (List.cons _) htake, fun h => ?_⟩
        simp only [List.length_cons] at h ⊢
        have := hlen (by omega)
        omega
      · obtain ⟨htake, hlen⟩ := ih (x :: s) (m := m + 1) (by omega)
        rw [show (b :: x :: s).take (m + 2) = b :: (x :: s).take (m + 1) from rfl, unesc_plain hb, unesc_plain hb]
        refine ⟨congrArg (List.cons b) htake, fun h => ?_⟩
        simp only [List.length_cons] at h hlen ⊢
        have := hlen (by omega)
        omega

/-- Settles O11: `unesc_take` at `m = 2 * k`, and for the length on the first `2 * k` bytes themselves. -/
theorem unescIsLocal : Obligations.UnescIsLocal := by
  intro bs k
  refine ⟨(unesc_take bs (le_refl _)).1.symm, fun hlen => (unesc_take (bs.take (2 * k)) (le_refl _)).2 ?_⟩
  rw [List.length_take]
  omega

theorem payloadAt_take {p : List Byte} {i n : Nat} (h : i < n) : payloadAt (p.take n) i = payloadAt p i := by
  simp [payloadAt, List.getD_eq_getElem?_getD, List.getElem?_take_of_lt h]

/-- The last two checks and the frame stay within the 23 bytes that 15 data bytes need (41_codec.md R88 to R90). -/
theorem decodeBody_take (c : Command) {p : List Byte} (hlong : MAX_PAYLOAD < p.length) :
    decodeBody .atDlc c (p.take MAX_PAYLOAD) = decodeBody .atDlc c p := by
  have hflags : flagsField (p.take MAX_PAYLOAD) = flagsField p := payloadAt_take (by decide)
  have hid : canIdField (p.take MAX_PAYLOAD) = canIdField p := by
    simp only [canIdField]
    rw [payloadAt_take (by decide), payloadAt_take (by decide), payloadAt_take (by decide), payloadAt_take (by decide)]
  have hlen : (p.take MAX_PAYLOAD).length = MAX_PAYLOAD := by rw [List.length_take, Nat.min_eq_left (Nat.le_of_lt hlong)]
  have hdlc : HDR_LEN + flagsDlc (flagsField p) < MAX_PAYLOAD :=
    Nat.succ_le_succ (Nat.add_le_add_left (flagsDlc_le _) HDR_LEN)
  have hsum : (p.take MAX_PAYLOAD).take (HDR_LEN + flagsDlc (flagsField p)) =
      p.take (HDR_LEN + flagsDlc (flagsField p)) := by
    rw [List.take_take, Nat.min_eq_left (Nat.le_of_lt hdlc)]
  have hdata : dataField (p.take MAX_PAYLOAD) (flagsDlc (flagsField p)) = dataField p (flagsDlc (flagsField p)) := by
    rw [dataField, dataField, List.drop_take, List.take_take, Nat.min_eq_left (by omega)]
  obtain ⟨hshort, -⟩ | ⟨-, hne, h⟩ | ⟨-, heq, h⟩ := decodeBody_cases c p
  · exact absurd (Nat.lt_of_lt_of_le hshort hdlc) (Nat.lt_asymm hlong)
  · obtain ⟨hshort', -⟩ | ⟨-, -, h'⟩ | ⟨-, heq', -⟩ := decodeBody_cases c (p.take MAX_PAYLOAD)
    · rw [hflags, hlen] at hshort'
      exact absurd hdlc (Nat.not_lt.mpr (Nat.le_of_lt_succ hshort'))
    · rw [h, h']
    · rw [hflags, hsum, payloadAt_take hdlc] at heq'
      exact absurd heq' hne
  · obtain ⟨hshort', -⟩ | ⟨-, hne', -⟩ | ⟨-, -, h'⟩ := decodeBody_cases c (p.take MAX_PAYLOAD)
    · rw [hflags, hlen] at hshort'
      exact absurd hdlc (Nat.not_lt.mpr (Nat.le_of_lt_succ hshort'))
    · rw [hflags, hsum, payloadAt_take hdlc] at hne'
      exact absurd heq hne'
    · rw [h, h', hflags, hid, hdata]

/-- No check of DECODE and no field of its frame looks beyond payload byte 22 (41_codec.md R83 to R90). -/
theorem decodePayload_take (p : List Byte) : decodePayload .atDlc (p.take MAX_PAYLOAD) = decodePayload .atDlc p := by
  obtain hshort | hlong := le_or_gt p.length MAX_PAYLOAD
  · rw [List.take_of_length_le hshort]
  have hlen : (p.take MAX_PAYLOAD).length = MAX_PAYLOAD := by rw [List.length_take, Nat.min_eq_left (Nat.le_of_lt hlong)]
  have hmin : MIN_PAYLOAD ≤ (p.take MAX_PAYLOAD).length := by rw [hlen]; decide
  have hver : versionField (p.take MAX_PAYLOAD) = versionField p := payloadAt_take (by decide)
  have hcmd : commandField (p.take MAX_PAYLOAD) = commandField p := payloadAt_take (by decide)
  obtain ⟨hshort, -⟩ | ⟨-, hv, h⟩ | ⟨-, hv, hc, h⟩ | ⟨c, -, hv, hc, h⟩ := decodePayload_cases p
  · exact absurd (Nat.lt_trans hlong hshort) (by decide)
  · rw [h, decodePayload_of_version_ne hmin (hver ▸ hv)]
  · rw [h, decodePayload_of_cmdOf_none hmin (hver.trans hv) (hcmd ▸ hc)]
  · rw [h, decodePayload_of_cmdOf_some hmin (hver.trans hv) (hcmd ▸ hc)]
    exact decodeBody_take c hlong

/-- An input cut behind 46 body bytes or more decodes as the whole does (R120). -/
theorem decodePacket_take (raw : List Byte) {n : Nat} (hn : MIN_CAP ≤ n) :
    decodePacket (raw.take (n + 1)) = decodePacket raw := by
  cases raw with
  | nil => rfl
  | cons b body =>
    rw [List.take_succ_cons]
    by_cases hb : b = START_BYTE
    · rw [hb, decodePacket_start, decodePacket_start, ← decodePayload_take, ← decodePayload_take (unesc body),
        (unesc_take body (k := MAX_PAYLOAD) hn).1]
    · rw [decodePacket_bad_start hb, decodePacket_bad_start hb]

end Sys2Proof.Machine
end

section
/-! The reassembler with a capacity as the unbounded one cut to it (42_reassembler.md R119, R120): every event commutes with
the cut, and the cut of a legal capacity cannot be seen through DECODE. -/

namespace Sys2Proof.Machine

/-- The bytes a buffer of capacity `cap` keeps of a sequence fed to it. -/
def cutTo (cap : Option Nat) (bs : List Byte) : List Byte :=
  match cap with
  | none => bs
  | some n => bs.take n

@[simp] theorem cutTo_nil (cap : Option Nat) : cutTo cap [] = [] := by
  cases cap <;> simp [cutTo]

/-- A capacity that holds a byte keeps something of whatever it is given. -/
theorem cutTo_eq_nil_iff {cap : Option Nat} (hcap : hasRoom cap 0 = true) (bs : List Byte) :
    cutTo cap bs = [] ↔ bs = [] := by
  cases cap with
  | none => rfl
  | some n =>
    have hn : n ≠ 0 := Nat.pos_iff_ne_zero.mp (of_decide_eq_true hcap)
    simp [cutTo, hn]

/-- Appending to the cut sequence where there is room is cutting the longer sequence. -/
theorem cutTo_concat (cap : Option Nat) (bs : List Byte) (b : Byte) :
    cutTo cap (bs ++ [b]) = if hasRoom cap (cutTo cap bs).length then cutTo cap bs ++ [b] else cutTo cap bs := by
  cases cap with
  | none => rfl
  | some n =>
    obtain hroom | hfull := Nat.lt_or_ge bs.length n
    · have htake : bs.take n = bs := List.take_of_length_le (Nat.le_of_lt hroom)
      rw [cutTo, cutTo, htake, show hasRoom (some n) bs.length = true from decide_eq_true hroom, if_pos rfl,
        List.take_of_length_le]
      rw [List.length_append, List.length_singleton]
      exact hroom
    · have hlen : (bs.take n).length = n := by rw [List.length_take, Nat.min_eq_left hfull]
      rw [cutTo, cutTo, List.take_append_of_le_length hfull, if_neg]
      rw [hlen]
      simp [hasRoom]

/-- The reassembler of capacity `cap` that stands for an unbounded one. -/
def Rsm.cut (cap : Option Nat) (r : Rsm) : Rsm := { r with buf := cutTo cap r.buf }

@[simp] theorem Rsm.cut_empty (cap : Option Nat) (armed : Bool) :
    Rsm.cut cap { buf := [], armed := armed } = { buf := [], armed := armed } := by
  rw [Rsm.cut, cutTo_nil]

/-- What a candidate of the unbounded reassembler becomes: the delimiter and the cut body. -/
def cutCandidate (cap : Option Nat) (raw : List Byte) : List Byte :=
  match cap with
  | none => raw
  | some n => raw.take (n + 1)

theorem cutCandidate_start (cap : Option Nat) (buf : List Byte) :
    cutCandidate cap (START_BYTE :: buf) = START_BYTE :: cutTo cap buf := by
  cases cap <;> rfl

theorem decodePacket_cutCandidate {cap : Option Nat} (hcap : legalCap cap = true) (raw : List Byte) :
    decodePacket (cutCandidate cap raw) = decodePacket raw := by
  cases cap with
  | none => rfl
  | some n => exact decodePacket_take raw ((legalCap_iff _).mp hcap n rfl)

theorem receiveCandidate_cutCandidate {cap : Option Nat} (hcap : legalCap cap = true) (pos : CsumPos)
    (c : Option (List Byte)) : receiveCandidate pos (c.map (cutCandidate cap)) = receiveCandidate pos c := by
  cases c with
  | none => rfl
  | some raw =>
    simp only [Option.map_some, receiveCandidate, decodePacketAt_eq, decodePacket_cutCandidate hcap]

section
variable {cap : Option Nat} (hcap : hasRoom cap 0 = true)
include hcap

/-- A delimiter closes the cut of a candidate where it closes the candidate. -/
theorem Rsm.feedStart_cut (r : Rsm) :
    (r.cut cap).feedStart = (r.feedStart.1.cut cap, r.feedStart.2.map (cutCandidate cap)) := by
  have hempty : (r.cut cap).buf = [] ↔ r.buf = [] := cutTo_eq_nil_iff hcap r.buf
  obtain ⟨harmed, hbuf, h⟩ | ⟨hidle, h⟩ := r.feedStart_cases
  · rw [Rsm.feedStart_of_collecting (r := r.cut cap) harmed (mt hempty.mp hbuf), h, Rsm.cut_empty, Option.map_some,
      cutCandidate_start]
    rfl
  · rw [Rsm.feedStart_of_idle (r := r.cut cap) (hidle.imp_right hempty.mpr), h, Rsm.cut_empty, Option.map_none]

/-- FLUSH emits the cut of what it emits from the whole. -/
theorem Rsm.flush_cut (r : Rsm) :
    (r.cut cap).flush = (r.flush.1.cut cap, r.flush.2.map (cutCandidate cap)) := by
  have hempty : (r.cut cap).buf = [] ↔ r.buf = [] := cutTo_eq_nil_iff hcap r.buf
  obtain ⟨hbuf, h⟩ | ⟨hbuf, h⟩ := r.flush_cases
  · rw [Rsm.flush_of_ne_nil (mt hempty.mp hbuf), h, Rsm.cut_empty, Option.map_some, cutCandidate_start]
    rfl
  · rw [Rsm.flush_of_nil (hempty.mpr hbuf), h, Option.map_none]

omit hcap in
/-- A data byte is kept by the cut exactly while the cut keeps it of the whole. -/
theorem Rsm.feedData_cut (r : Rsm) (b : Byte) :
    (r.cut cap).feedData cap b = ((r.feedData none b).1.cut cap, (r.feedData none b).2.map (cutCandidate cap)) := by
  cases harmed : r.armed with
  | false => rw [Rsm.feedData_of_unarmed harmed, Rsm.feedData_of_unarmed (r := r.cut cap) harmed, Option.map_none]
  | true =>
    rw [Rsm.feedData_of_room harmed (cap := none) rfl, Option.map_none]
    show (r.cut cap).feedData cap b = ({ buf := cutTo cap (r.buf ++ [b]), armed := true }, none)
    rw [cutTo_concat]
    cases hroom : hasRoom cap (cutTo cap r.buf).length with
    | true => exact Rsm.feedData_of_room harmed hroom
    | false => rw [Rsm.feedData_of_full hroom, Rsm.cut, harmed, if_neg Bool.false_ne_true]

/-- Every event answers at the cut what it answers at the whole, cut. -/
theorem Rsm.event_cut (r : Rsm) (e : RsmEvent) :
    (r.cut cap).event cap e = (((r.event none e).1).cut cap, (r.event none e).2.map (cutCandidate cap)) := by
  cases e with
  | feed b =>
    by_cases hb : b = START_BYTE
    · rw [Rsm.event, Rsm.event, hb, Rsm.feed_start, Rsm.feed_start, Rsm.feedStart_cut hcap]
    · rw [Rsm.event, Rsm.event, Rsm.feed_data _ _ hb, Rsm.feed_data _ _ hb, Rsm.feedData_cut]
  | flush => exact Rsm.flush_cut hcap r
  | reset => exact congrArg (·, none) (Rsm.cut_empty cap false).symm

/-- A run at the cut is the run at the whole, cut (R119). -/
theorem Rsm.run_cut (r : Rsm) (es : List RsmEvent) :
    (r.cut cap).run cap es =
      (((r.run none es).1).cut cap, (r.run none es).2.map (Option.map (cutCandidate cap))) := by
  induction es generalizing r with
  | nil => rfl
  | cons e es ih => rw [run_cons, run_cons, Rsm.event_cut hcap, ih, List.map_cons]

theorem Rsm.phase_cut (r : Rsm) : (r.cut cap).phase = r.phase := by
  obtain ⟨_ | ⟨b, rest⟩, armed⟩ := r
  · rw [Rsm.cut_empty]
  · obtain ⟨b', rest', hcut⟩ :=
      List.exists_cons_of_ne_nil (mt (cutTo_eq_nil_iff hcap (b :: rest)).mp (List.cons_ne_nil b rest))
    rw [Rsm.cut, hcut]
    cases armed <;> rfl

end

/-- Settles O38: each run is the unbounded one cut, and the cut cannot be seen through DECODE. -/
theorem capacityIsInvisibleThroughDecode : Obligations.CapacityIsInvisibleThroughDecode := by
  intro n es hn
  have hcap : legalCap (some n) = true := decide_eq_true hn
  have hrun := Rsm.run_cut (hasRoom_zero_of_legalCap hcap) State.reset.rsm es
  rw [show State.reset.rsm.cut (some n) = State.reset.rsm from Rsm.cut_empty _ _] at hrun
  rw [hrun, List.map_map]
  refine List.map_congr_left fun c _ => ?_
  rw [Function.comp_apply, Option.map_map]
  exact congrArg (fun f => c.map f) (funext (decodePacket_cutCandidate hcap))

end Sys2Proof.Machine
end

section
/-! Candidates over a stream (42_reassembler.md R117, R119): the bytes since the delimiter, for the unbounded reassembler
and, cut, for every other. -/

namespace Sys2Proof.Machine

theorem run_append (cap : Option Nat) (r : Rsm) (es fs : List RsmEvent) :
    r.run cap (es ++ fs) =
      (((r.run cap es).1.run cap fs).1, (r.run cap es).2 ++ ((r.run cap es).1.run cap fs).2) := by
  induction es generalizing r with
  | nil => rfl
  | cons e es ih => rw [List.cons_append, run_cons, run_cons, ih, List.cons_append]

/-- An armed unbounded reassembler collects whatever is no delimiter, and answers nothing. -/
theorem Rsm.run_data (buf : List Byte) {bs : List Byte} (hbs : START_BYTE ∉ bs) :
    Rsm.run none { buf := buf, armed := true } (bs.map .feed) =
      ({ buf := buf ++ bs, armed := true }, bs.map fun _ => none) := by
  induction bs generalizing buf with
  | nil => rw [List.append_nil]; rfl
  | cons b bs ih =>
    obtain ⟨hb, hrest⟩ := not_or.mp (mt List.mem_cons.mpr hbs)
    rw [List.map_cons, run_cons, Rsm.event_data _ _ (Ne.symm hb), Rsm.feedData_of_room rfl rfl, ih _ hrest,
      List.append_assoc]
    rfl

/-- Both closing events, on an armed reassembler, emit what it holds (R111, R115). -/
theorem Rsm.event_closing (cap : Option Nat) (buf : List Byte) {e : RsmEvent} (he : e = .feed START_BYTE ∨ e = .flush) :
    Rsm.event cap { buf := buf, armed := true } e =
      ({ buf := [], armed := true }, if buf = [] then none else some (START_BYTE :: buf)) := by
  by_cases hbuf : buf = []
  · subst hbuf
    obtain rfl | rfl := he <;> rfl
  · rw [if_neg hbuf]
    obtain rfl | rfl := he
    · rw [Rsm.event_start, Rsm.feedStart_of_collecting rfl hbuf]
    · rw [Rsm.event_flush, Rsm.flush_of_ne_nil hbuf]

/-- From a delimiter to the next closing event: nothing for each byte, then the bytes, cut to the capacity (R117, R119). -/
theorem Rsm.run_since_delimiter {cap : Option Nat} (hcap : hasRoom cap 0 = true) {bs : List Byte} (hbs : START_BYTE ∉ bs)
    {e : RsmEvent} (he : e = .feed START_BYTE ∨ e = .flush) :
    Rsm.run cap { buf := [], armed := true } (bs.map .feed ++ [e]) =
      ({ buf := [], armed := true },
        bs.map (fun _ => none) ++ [if bs = [] then none else some (START_BYTE :: cutTo cap bs)]) := by
  have hwhole : Rsm.run none { buf := [], armed := true } (bs.map .feed ++ [e]) =
      ({ buf := [], armed := true }, bs.map (fun _ => none) ++ [if bs = [] then none else some (START_BYTE :: bs)]) := by
    rw [run_append, Rsm.run_data [] hbs, List.nil_append, run_cons, run_nil, Rsm.event_closing none bs he]
  have hcut := Rsm.run_cut hcap { buf := [], armed := true } (bs.map .feed ++ [e])
  rw [Rsm.cut_empty, hwhole, Rsm.cut_empty, List.map_append, List.map_map, List.map_singleton] at hcut
  rw [hcut]
  split_ifs
  · rfl
  · rw [Option.map_some, cutCandidate_start]
    rfl

/-- Settles O37: after the delimiter the reassembler is armed and empty whatever it held: `run_since_delimiter`. -/
theorem candidateIsTheBytesSinceTheDelimiter : Obligations.CandidateIsTheBytesSinceTheDelimiter := by
  intro r bs e hbs he
  have hready (cap : Option Nat) : (r.event cap (.feed 0xAA)).1 = { buf := [], armed := true } := by
    rw [show (0xAA : Byte) = START_BYTE from rfl, Rsm.event_start, Rsm.feedStart_fst]
  refine ⟨fun n hn => ?_, ?_⟩
  · rw [hready]
    exact Rsm.run_since_delimiter (cap := some n) (decide_eq_true hn) hbs he
  · rw [hready]
    exact Rsm.run_since_delimiter rfl hbs he

/-- A body of 46 bytes: the payload of a CAN_SEND frame with 15 zero data bytes, every byte written behind a lead, as UNESC
allows (D6). -/
def fullBody : List Byte :=
  ([0x01, 0x01, 0, 0, 0, 0, 0x0F] ++ List.replicate 15 0 ++ [0x11]).flatMap fun b => [ESC_BYTE, b ^^^ ESC_XOR]

/-- Settles O39: the 46th byte of `fullBody` is half of the checksum; without it the payload is one byte short. -/
theorem capacityFortyFiveShows : Obligations.CapacityFortyFiveShows := by
  refine ⟨.feed START_BYTE :: (fullBody.map .feed ++ [.flush]), fun h => ?_⟩
  have hbody : START_BYTE ∉ fullBody := by decide
  have hne : fullBody ≠ [] := by decide
  have hstart (cap : Option Nat) : State.reset.rsm.event cap (.feed START_BYTE) = ({ buf := [], armed := true }, none) := rfl
  simp only [run_cons, hstart, Rsm.run_since_delimiter (cap := some 45) rfl hbody (.inr rfl),
    Rsm.run_since_delimiter (cap := none) rfl hbody (.inr rfl), if_neg hne] at h
  have hlast := congrArg List.getLast? h
  simp only [List.map_cons, List.map_append, ← List.cons_append, List.map_nil, List.getLast?_concat, Option.map_some,
    Option.some.injEq] at hlast
  exact absurd hlast (by decide)

end Sys2Proof.Machine
end

section
/-! The receive wiring (42_reassembler.md R121 to R123): RXBYTE and RXFLUSH as FEED and FLUSH behind DECODE, on one byte and
on a stream. -/

namespace Sys2Proof.Machine

open Sys2Proof.Claims (returning)

theorem exec_rxByte (b : Byte) (s : State) :
    exec (.rxByte b) s = .next (returnReceived s (s.rsm.event s.config.rsmCap (.feed b))) := rfl

theorem exec_rxFlush (s : State) :
    exec .rxFlush s = .next (returnReceived s (s.rsm.event s.config.rsmCap .flush)) := rfl

/-- What is returned for each thing an event can emit (R121, R122). -/
theorem returnReceived_eq (s : State) (x : Rsm × Option (List Byte)) :
    (x.2 = none → returnReceived s x = { returning s (.received .absent) with rsm := x.1 }) ∧
    (∀ raw f, x.2 = some raw → decodePacket raw = .ok f →
      returnReceived s x = { returning s (.received (.frame f)) with rsm := x.1 }) ∧
    (∀ raw k, x.2 = some raw → decodePacket raw = .err k →
      returnReceived s x = { returning s (.received (.dropped k)) with rsm := x.1 }) := by
  refine ⟨fun h => ?_, fun raw f h hdec => ?_, fun raw k h hdec => ?_⟩
  · rw [returnReceived, h]
    rfl
  · rw [returnReceived, h, receiveCandidate, decodePacketAt_eq, hdec]
    rfl
  · rw [returnReceived, h, receiveCandidate, decodePacketAt_eq, hdec]
    rfl

/-- Settles O40: FEED's event, with its candidate returned raw and decoded. -/
theorem rxByteIsFeedThenDecode : Obligations.RxByteIsFeedThenDecode := by
  intro b s
  obtain ⟨habsent, hframe, hdropped⟩ := returnReceived_eq s (s.rsm.feed s.config.rsmCap b)
  exact ⟨_, _, exec_feed b s, fun h => congrArg _ (habsent h), fun raw f h hdec => congrArg _ (hframe raw f h hdec),
    fun raw k h hdec => congrArg _ (hdropped raw k h hdec)⟩

/-- Settles O41: FLUSH's event, with its candidate returned raw and decoded. -/
theorem rxFlushIsFlushThenDecode : Obligations.RxFlushIsFlushThenDecode := by
  intro s
  obtain ⟨habsent, hframe, hdropped⟩ := returnReceived_eq s s.rsm.flush
  exact ⟨_, _, exec_flush s, fun h => congrArg _ (habsent h), fun raw f h hdec => congrArg _ (hframe raw f h hdec),
    fun raw k h hdec => congrArg _ (hdropped raw k h hdec)⟩

/-- Whoever emits a candidate, in a legal state, is left armed and empty: it was armed, since it held something (R116). -/
theorem Rsm.event_of_candidate {cap : Option Nat} {r : Rsm} {e : RsmEvent} {raw : List Byte} (hlegal : r.Legal cap)
    (h : (r.event cap e).2 = some raw) : (r.event cap e).1 = { buf := [], armed := true } := by
  obtain ⟨harmed, -, -⟩ := hlegal
  cases e with
  | feed b =>
    by_cases hb : b = START_BYTE
    · rw [hb, Rsm.event_start, Rsm.feedStart_fst]
    · rw [Rsm.event_data _ _ hb] at h
      obtain ⟨-, -, hres⟩ | ⟨-, hres⟩ := r.feedData_cases cap b <;> rw [hres] at h <;> cases h
  | flush =>
    rw [Rsm.event_flush] at h ⊢
    obtain ⟨hbuf, hres⟩ | ⟨-, hres⟩ := r.flush_cases
    · rw [hres, harmed hbuf]
    · rw [hres] at h; cases h
  | reset => cases h

/-- Settles O42: a result other than None comes of a candidate, and of a candidate only. -/
theorem droppedLeavesTheReassemblerReady : Obligations.DroppedLeavesTheReassemblerReady := by
  intro i s t r hlegal h hout hr
  obtain ⟨_, huses, -⟩ | ⟨e, -, -, hexec⟩ | ⟨e, -, -, hexec⟩ | ⟨-, hexec⟩ := exec_cases i s
  · obtain ⟨o, hexec, hother, -⟩ := exec_codec huses
    rw [hexec] at h; cases h
    exact absurd (by simpa using hout) (hother r)
  · rw [hexec] at h; cases h
    simp at hout
  · rw [hexec] at h; cases h
    cases hcand : (s.rsm.event s.config.rsmCap e).2 with
    | none =>
      rw [returnReceived_outputs, hcand] at hout
      exact absurd (by simpa [receiveCandidate] using hout.symm) hr
    | some raw => exact Rsm.event_of_candidate hlegal hcand
  · rw [hexec] at h; cases h
    simp at hout

theorem receivedOf_append (os ps : List Output) : receivedOf (os ++ ps) = receivedOf os ++ receivedOf ps := by
  induction os with
  | nil => rfl
  | cons o os ih =>
    cases o with
    | received r => cases r <;> simp [receivedOf, ih]
    | _ => simp [receivedOf, ih]

theorem candidatesOf_append (os ps : List Output) : candidatesOf (os ++ ps) = candidatesOf os ++ candidatesOf ps := by
  induction os with
  | nil => rfl
  | cons o os ih =>
    cases o with
    | candidate c => cases c <;> simp [candidatesOf, ih]
    | _ => simp [candidatesOf, ih]

/-- A byte stream received and flushed is the reassembler's run over the same events, each candidate decoded (R121, R122). -/
theorem performAll_rxStream (bs : List Byte) (s : State) :
    ∃ t, performAll (pseudoRxSeq bs ++ [Instr.rxFlush]) s = .next t ∧
      t.rsm = (s.rsm.run s.config.rsmCap (bs.map RsmEvent.feed ++ [RsmEvent.flush])).1 ∧
      t.outputs = s.outputs ++ (s.rsm.run s.config.rsmCap (bs.map RsmEvent.feed ++ [RsmEvent.flush])).2.map
        fun c => Output.received (receiveCandidate s.config.csumPos c) := by
  induction bs generalizing s with
  | nil => exact ⟨_, performAll_cons (exec_rxFlush s) [], rfl, rfl⟩
  | cons b bs ih =>
    obtain ⟨t, hrun, hrsm, hout⟩ := ih (returnReceived s (s.rsm.event s.config.rsmCap (.feed b)))
    exact ⟨t, (performAll_cons (exec_rxByte b s) _).trans hrun, hrsm, by simpa using hout⟩

/-- A candidate that is a packet and whatever follows it, cut to a legal capacity, is received as the packet's frame. -/
theorem receiveCandidate_packet {cap : Option Nat} (hcap : legalCap cap = true) (pos : CsumPos) (c : Command) (canId : CanId)
    (extended : Bool) {data : List Byte} (hdata : data.length ≤ MAX_DATA) (g : List Byte) :
    receiveCandidate pos (some (START_BYTE :: cutTo cap (escSeq (encodePayload c canId extended data) ++ g))) =
      .frame (frameOf c canId extended data) := by
  have hdec : decodePacket (START_BYTE :: (escSeq (encodePayload c canId extended data) ++ g)) =
      .ok (frameOf c canId extended data) := decodePacket_packetOf_append c canId extended g hdata
  rw [← cutCandidate_start, ← Option.map_some, receiveCandidate_cutCandidate hcap, receiveCandidate, decodePacketAt_eq, hdec]

/-- Of the results over a stream the `None`s are those of the events that emitted nothing (R123). -/
theorem receivedOf_map_receiveCandidate (pos : CsumPos) (cs : List (Option (List Byte))) :
    receivedOf (cs.map fun c => .received (receiveCandidate pos c)) =
      (cs.filterMap id).map fun raw => receiveCandidate pos (some raw) := by
  induction cs with
  | nil => rfl
  | cons c cs ih =>
    cases c with
    | none => exact ih
    | some raw =>
      obtain ⟨hnone, -⟩ | ⟨_, f, -, -, h⟩ | ⟨_, k, -, -, h⟩ := receiveCandidate_cases pos (some raw)
      · cases hnone
      · simp [receivedOf, h, ih]
      · simp [receivedOf, h, ih]

/-- The candidates of a run: those of its events that emitted one. -/
theorem filterMap_id_nones {α : Type} (bs : List Byte) (x : α) :
    (bs.map (fun _ => (none : Option α)) ++ [some x]).filterMap id = [x] := by
  simp

/-- Two bodies behind a delimiter each, the second flushed: the run of R119 twice (42_reassembler.md section Invariants). -/
theorem Rsm.run_two_bodies {cap : Option Nat} (hcap : hasRoom cap 0 = true) (armed : Bool) {bs ds : List Byte}
    (hbs : START_BYTE ∉ bs) (hds : START_BYTE ∉ ds) (hbs' : bs ≠ []) (hds' : ds ≠ []) :
    Rsm.run cap { buf := [], armed := armed }
        ((START_BYTE :: bs ++ START_BYTE :: ds).map RsmEvent.feed ++ [RsmEvent.flush]) =
      ({ buf := [], armed := true },
        none :: (bs.map (fun _ => none) ++ [some (START_BYTE :: cutTo cap bs)]) ++
          (ds.map (fun _ => none) ++ [some (START_BYTE :: cutTo cap ds)])) := by
  have hevents : (START_BYTE :: bs ++ START_BYTE :: ds).map RsmEvent.feed ++ [RsmEvent.flush] =
      RsmEvent.feed START_BYTE ::
        ((bs.map RsmEvent.feed ++ [RsmEvent.feed START_BYTE]) ++ (ds.map RsmEvent.feed ++ [RsmEvent.flush])) := by simp
  rw [hevents, run_cons, Rsm.event_start, Rsm.feedStart_of_idle (.inr rfl), run_append,
    Rsm.run_since_delimiter hcap hbs (.inl rfl), Rsm.run_since_delimiter hcap hds (.inr rfl), if_neg hbs', if_neg hds']
  rfl

/-- Settles O43: the stream is two bodies behind a delimiter each; the noise ends the first, where DECODE ignores it. -/
theorem receiverResynchronises : Obligations.ReceiverResynchronises := by
  intro c₁ c₂ id₁ id₂ x₁ x₂ d₁ d₂ pkt₁ pkt₂ noise s h₁ h₂ hnoise hbuf hlegal
  obtain ⟨hcap, -⟩ := (config_legal_iff _).mp hlegal
  obtain ⟨hd₁, rfl⟩ := encodeFrame_ok _ _ _ h₁
  obtain ⟨hd₂, rfl⟩ := encodeFrame_ok _ _ _ h₂
  have hbody (c : Command) (id : CanId) (x : Bool) (d : List Byte) : escSeq (encodePayload c id x d) ≠ [] := by
    rw [← List.length_pos_iff, escSeq_length, encodePayload_length]
    omega
  obtain ⟨t, hrun, hrsm, hout⟩ := performAll_rxStream
    (packetOf (encodePayload c₁ id₁ x₁ d₁) ++ noise ++ packetOf (encodePayload c₂ id₂ x₂ d₂)) s
  have hs : s.rsm = { buf := [], armed := s.rsm.armed } := by rw [← hbuf]
  rw [packetOf, packetOf, hs, List.cons_append,
    Rsm.run_two_bodies (hasRoom_zero_of_legalCap hcap) s.rsm.armed
      (by rw [List.mem_append, not_or]; exact ⟨start_not_mem_escSeq _, hnoise⟩) (start_not_mem_escSeq _)
      (List.append_ne_nil_of_left_ne_nil (hbody _ _ _ _) _) (hbody _ _ _ _)] at hrsm hout
  refine ⟨t, _, hrun, hrsm, hout, ?_⟩
  have hsecond := receiveCandidate_packet hcap s.config.csumPos c₂ id₂ x₂ hd₂ []
  rw [List.append_nil] at hsecond
  rw [receivedOf_map_receiveCandidate, List.cons_append, List.filterMap_cons_none rfl, List.filterMap_append,
    filterMap_id_nones, filterMap_id_nones, List.singleton_append, List.map_cons, List.map_singleton,
    receiveCandidate_packet hcap _ _ _ _ hd₁, hsecond]
  rfl

end Sys2Proof.Machine
end

section
/-! One step on the oldest request (20_memory.md R29, R35; logs 1, 7 and 8): performed, refused, or nothing to do. -/

namespace Sys2Proof.Machine

variable {s : State} {q : Request} {rest : List Request} {i : Instr}

theorem step_of_admitted (hreq : s.requests = q :: rest) (hdec : decode q.port q.bytes = .instr i)
    (hadm : s.admits q.context i = true) : step s = exec i (s.take q.context i rest) := by
  simp [step, performNext, hreq, hdec, hadm]

theorem step_of_not_admitted (hreq : s.requests = q :: rest) (hdec : decode q.port q.bytes = .instr i)
    (hadm : s.admits q.context i = false) :
    step s = .refused (.secondReader (s.reader.getD q.context) q.context) := by
  simp [step, performNext, hreq, hdec, hadm]

theorem step_of_rejected {r : Refusal} (hreq : s.requests = q :: rest) (hdec : decode q.port q.bytes = .rejected r) :
    step s = .refused r := by
  simp [step, performNext, hreq, hdec]

/-- Settles O52: the empty list is the idle branch. -/
theorem idleStepHoldsTheState : Obligations.IdleStepHoldsTheState := by
  intro s hreq
  simp [step, performNext, hreq]

/-- Settles O50: the request is admitted in both cases, and `take` writes the reader in the second only. -/
theorem stepRunsTheDecodedInstruction : Obligations.StepRunsTheDecodedInstruction := by
  refine fun s q rest i hreq hdec => ⟨fun hcodec => ?_, fun hrx hreader => ?_⟩
  · rw [step_of_admitted hreq hdec ((s.admits_iff _ _).mpr (.inl hcodec)), State.take, hcodec]
    rfl
  · rw [step_of_admitted hreq hdec ((s.admits_iff _ _).mpr (.inr hreader)), State.take, hrx]
    rfl

/-- Settles O51: another reader's request is not admitted; a command byte outside the set is not read. -/
theorem stepRefusesAtTheInterface : Obligations.StepRefusesAtTheInterface := by
  refine ⟨fun s q rest i owner hreq hdec hrx howner hne => ?_, fun s ctx rest b i0 i1 i2 i3 e data hb hreq => ?_⟩
  · have hadm : s.admits q.context i = false := by
      rw [← Bool.not_eq_true, State.admits_iff, howner, hrx]
      simpa using hne
    rw [step_of_not_admitted hreq hdec hadm, howner, Option.getD_some]
  · refine step_of_rejected hreq ?_
    simp [decode, decodeEncodePort, (cmdOf_eq_none_iff b).mpr hb]

/-- The request a table word is presented as, when the decoder reads it (log 4). -/
theorem decodeTableWord_eq_some {nbits w : Nat} (h : decodeTableWord nbits w = some i) :
    ∃ port bs, tableRequest nbits w = some (port, bs) ∧ decode port bs = .instr i := by
  unfold decodeTableWord at h
  cases hreq : tableRequest nbits w with
  | none => rw [hreq] at h; cases h
  | some request =>
    obtain ⟨port, bs⟩ := request
    rw [hreq] at h
    refine ⟨port, bs, rfl, ?_⟩
    cases hdec : decode port bs with
    | instr j => simpa [hdec] using h
    | rejected r => simp [hdec] at h

/-- Settles O53: the word is presented from the reader, or from context 0 while there is none, and so admitted. -/
theorem fetchWordRunsTheTableWord : Obligations.FetchWordRunsTheTableWord := by
  intro s nbits w i h
  obtain ⟨port, bs, hword, hdec⟩ := decodeTableWord_eq_some h
  have hpresent : s.withFetchWord nbits w = s.present port bs := by rw [State.withFetchWord, hword]
  have hadm : (s.present port bs).admits (s.reader.getD 0) i = true := by
    rw [State.admits_iff, State.present_reader]
    cases s.reader with
    | none => exact .inr (.inl rfl)
    | some ctx => exact .inr (.inr rfl)
  rw [hpresent, step_of_admitted (State.present_requests s port bs) hdec hadm]
  rfl

end Sys2Proof.Machine
end

section
/-! Runs over one reader's requests (20_memory.md R33; logs 1 and 8): no instruction looks at the bookkeeping, so the machine
with the requests still pending does what performing the instructions does. -/

namespace Sys2Proof.Machine

/-- The same state with other pending requests and another reader. -/
def State.withBook (s : State) (requests : List Request) (reader : Option Nat) : State :=
  { s with requests := requests, reader := reader }

/-- The bookkeeping passes through every instruction (60_exceptions.md R130). -/
theorem exec_withBook {i : Instr} {s t : State} (h : exec i s = .next t) (requests : List Request) (reader : Option Nat) :
    exec i (s.withBook requests reader) = .next (t.withBook requests reader) := by
  cases huses : i.usesReassembler with
  | false =>
    obtain ⟨o, hexec, -⟩ := exec_codec huses
    rw [hexec] at h ⊢; cases h; rfl
  | true =>
    obtain rfl | ⟨e, hexec⟩ | ⟨e, hexec⟩ := exec_rxAgent huses
    · rw [exec_reset] at h ⊢; cases h; rfl
    · rw [hexec] at h ⊢; cases h; rfl
    · rw [hexec] at h ⊢; cases h; rfl

/-- The request by which `ctx` presents `i`. -/
def requestOf (ctx : Nat) (i : Instr) : Request := { context := ctx, port := (encode i).1, bytes := (encode i).2 }

/-- Performing a list of instructions always completes (R130). -/
theorem performAll_completes (is : List Instr) (s : State) : ∃ t, performAll is s = .next t := by
  induction is generalizing s with
  | nil => exact ⟨s, rfl⟩
  | cons i is ih =>
    obtain ⟨t, hexec, -⟩ := everyInstructionCompletes i s
    rw [performAll_cons hexec]
    exact ih t

/-- One step on a well-formed instruction's request is that instruction, with the bookkeeping moved on. -/
theorem step_requestOf {ctx : Nat} {i : Instr} {s t : State} {rest : List Request} {reader : Option Nat}
    (hwf : i.wellFormed = true) (hreader : reader = none ∨ reader = some ctx) (h : exec i s = .next t) :
    step (s.withBook (requestOf ctx i :: rest) reader) =
      .next (t.withBook rest (if i.usesReassembler then some ctx else reader)) := by
  rw [step_of_admitted (q := requestOf ctx i) rfl (decodeReadsBackEveryInstruction i hwf)
    ((State.admits_iff _ _ _).mpr (.inr hreader))]
  exact exec_withBook h rest _

theorem core_run_succ {M : Host.Core} {s t : M.State} (h : M.step s = .next t) (k : Nat) :
    M.run (k + 1) s = M.run k t := by
  rw [Host.Core.run, h]

/-- As many steps as requests perform them all. -/
theorem run_requests {ctx : Nat} {is : List Instr} {s u : State} {reader : Option Nat}
    (hwf : ∀ i ∈ is, i.wellFormed = true) (hreader : reader = none ∨ reader = some ctx) (h : performAll is s = .next u) :
    ∃ reader', Sys2Proof.core.run is.length (s.withBook (is.map (requestOf ctx)) reader) =
      .next (u.withBook [] reader') := by
  induction is generalizing s reader with
  | nil => cases h; exact ⟨reader, rfl⟩
  | cons i is ih =>
    obtain ⟨t, hexec, -⟩ := everyInstructionCompletes i s
    rw [performAll_cons hexec] at h
    have hreader' : (if i.usesReassembler then some ctx else reader) = none ∨
        (if i.usesReassembler then some ctx else reader) = some ctx := by
      split_ifs
      · exact .inr rfl
      · exact hreader
    obtain ⟨reader', hrun⟩ := ih (fun j hj => hwf j (List.mem_cons_of_mem i hj)) hreader' h
    have hstep : Sys2Proof.core.step (s.withBook (requestOf ctx i :: is.map (requestOf ctx)) reader) =
        .next (t.withBook (is.map (requestOf ctx)) (if i.usesReassembler then some ctx else reader)) :=
      step_requestOf (hwf i List.mem_cons_self) hreader hexec
    exact ⟨reader', (core_run_succ hstep is.length).trans hrun⟩

/-- Settles O54: `run_requests` from the state as it stands, whose bookkeeping is the requests and its reader. -/
theorem runPerformsTheRequestsInOrder : Obligations.RunPerformsTheRequestsInOrder := by
  intro ctx is s hwf hreq hreader
  obtain ⟨u, hperform⟩ := performAll_completes is s
  obtain ⟨reader', hrun⟩ := run_requests hwf hreader hperform
  have hbook : s.withBook (is.map (requestOf ctx)) s.reader = s := by
    rw [State.withBook, show is.map (requestOf ctx) = s.requests from hreq.symm]
  rw [hbook] at hrun
  exact ⟨_, u, hrun, hperform, rfl, rfl, rfl⟩

end Sys2Proof.Machine
end

section
/-! Two machines side by side (20_memory.md R34, D16; 42_reassembler.md R120, U9): one that leaves out what is not the RX
agent's, and one whose buffer is unbounded. -/

namespace Sys2Proof.Machine

/-- What the RX agent can tell of two states, and what the host can tell of its results. -/
structure SameToRxAgent (s u : State) : Prop where
  rsm : u.rsm = s.rsm
  config : u.config = s.config
  candidates : candidatesOf u.outputs = candidatesOf s.outputs
  received : receivedOf u.outputs = receivedOf s.outputs

/-- An operation outside the RX agent's goes unnoticed. -/
theorem SameToRxAgent.exec_codec {s u t : State} {i : Instr} (h : SameToRxAgent s u) (hi : i.usesReassembler = false)
    (hexec : exec i s = .next t) : SameToRxAgent t u := by
  obtain ⟨o, ho, hreceived, hcandidate⟩ := Machine.exec_codec hi
  rw [ho] at hexec
  cases hexec
  have hcand : candidatesOf [o] = [] := by
    cases o with
    | candidate c => exact absurd rfl (hcandidate c)
    | _ => rfl
  have hrecv : receivedOf [o] = [] := by
    cases o with
    | received r => exact absurd rfl (hreceived r)
    | _ => rfl
  refine ⟨h.rsm, h.config, ?_, ?_⟩
  · rw [State.emit_outputs, candidatesOf_append, hcand, List.append_nil, h.candidates]
  · rw [State.emit_outputs, receivedOf_append, hrecv, List.append_nil, h.received]

/-- An operation of the RX agent's does the same in both. -/
theorem SameToRxAgent.exec_rxAgent {s u t : State} {i : Instr} (h : SameToRxAgent s u) (hi : i.usesReassembler = true)
    (hexec : exec i s = .next t) : ∃ v, exec i u = .next v ∧ SameToRxAgent t v := by
  obtain rfl | ⟨e, he⟩ | ⟨e, he⟩ := Machine.exec_rxAgent hi
  · rw [exec_reset] at hexec ⊢
    cases hexec
    exact ⟨_, rfl, rfl, h.config, h.candidates, h.received⟩
  · rw [he] at hexec ⊢
    cases hexec
    rw [h.rsm, h.config]
    refine ⟨_, rfl, rfl, h.config, ?_, ?_⟩
    · rw [returnCandidate_outputs, returnCandidate_outputs, candidatesOf_append, candidatesOf_append, h.candidates]
    · rw [returnCandidate_outputs, returnCandidate_outputs, receivedOf_append, receivedOf_append, h.received]
  · rw [he] at hexec ⊢
    cases hexec
    rw [h.rsm, h.config]
    refine ⟨_, rfl, rfl, h.config, ?_, ?_⟩
    · rw [returnReceived_outputs, returnReceived_outputs, candidatesOf_append, candidatesOf_append, h.candidates, h.config]
    · rw [returnReceived_outputs, returnReceived_outputs, receivedOf_append, receivedOf_append, h.received, h.config]

theorem SameToRxAgent.performAll_filter {is : List Instr} {s u t : State} (h : SameToRxAgent s u)
    (hrun : performAll is s = .next t) :
    ∃ v, performAll (is.filter Instr.usesReassembler) u = .next v ∧ SameToRxAgent t v := by
  induction is generalizing s u with
  | nil => cases hrun; exact ⟨u, rfl, h⟩
  | cons i is ih =>
    obtain ⟨s', hexec, -⟩ := everyInstructionCompletes i s
    rw [performAll_cons hexec] at hrun
    cases huses : i.usesReassembler with
    | false =>
      rw [List.filter_cons_of_neg (by simp [huses])]
      exact ih (h.exec_codec huses hexec) hrun
    | true =>
      obtain ⟨u', hexec', h'⟩ := h.exec_rxAgent huses hexec
      rw [List.filter_cons_of_pos huses, performAll_cons hexec']
      exact ih h' hrun

/-- Settles O46: the two runs start in the same state and stay the same to the RX agent. -/
theorem interleavedCodecOperationsAreInvisible : Obligations.InterleavedCodecOperationsAreInvisible := by
  intro is s t hrun
  obtain ⟨u, hu, h⟩ := SameToRxAgent.performAll_filter ⟨rfl, rfl, rfl, rfl⟩ hrun
  exact ⟨u, hu, h.rsm, h.candidates, h.received⟩

/-- A machine with a legal capacity beside one without: its reassembler is the other's, cut, and the results agree once
every candidate is decoded (R120). -/
structure CutOf (s u : State) : Prop where
  legal : legalCap s.config.rsmCap = true
  unbounded : u.config.rsmCap = none
  rsm : s.rsm = u.rsm.cut s.config.rsmCap
  outputs : s.outputs.map throughDecode = u.outputs.map throughDecode

/-- What an event emits is the same to a host that decodes it. -/
theorem CutOf.event {s u : State} (h : CutOf s u) (e : RsmEvent) :
    (s.rsm.event s.config.rsmCap e).1 = (u.rsm.event u.config.rsmCap e).1.cut s.config.rsmCap ∧
    ∀ pos pos', receiveCandidate pos (s.rsm.event s.config.rsmCap e).2 =
      receiveCandidate pos' (u.rsm.event u.config.rsmCap e).2 := by
  rw [h.rsm, h.unbounded, Rsm.event_cut (hasRoom_zero_of_legalCap h.legal)]
  refine ⟨rfl, fun pos pos' => ?_⟩
  rw [receiveCandidate_cutCandidate h.legal, receiveCandidate_atDlc, receiveCandidate_atDlc pos']

theorem CutOf.exec {s u t : State} {i : Instr} (h : CutOf s u) (hexec : exec i s = .next t) :
    ∃ v, Machine.exec i u = .next v ∧ CutOf t v := by
  cases huses : i.usesReassembler with
  | false =>
    obtain ⟨o, ho, -⟩ := exec_codec huses
    rw [ho] at hexec ⊢
    cases hexec
    exact ⟨_, rfl, h.legal, h.unbounded, h.rsm, by simp [h.outputs]⟩
  | true =>
    obtain rfl | ⟨e, he⟩ | ⟨e, he⟩ := exec_rxAgent huses
    · rw [exec_reset] at hexec ⊢
      cases hexec
      exact ⟨_, rfl, h.legal, h.unbounded, (Rsm.cut_empty _ _).symm, h.outputs⟩
    · obtain ⟨hrsm, hresult⟩ := h.event e
      rw [he] at hexec ⊢
      cases hexec
      exact ⟨_, rfl, h.legal, h.unbounded, hrsm, by simp [h.outputs, hresult .atDlc .atDlc]⟩
    · obtain ⟨hrsm, hresult⟩ := h.event e
      rw [he] at hexec ⊢
      cases hexec
      exact ⟨_, rfl, h.legal, h.unbounded, hrsm, by simp [h.outputs, hresult _ u.config.csumPos]⟩

theorem CutOf.performAll {is : List Instr} {s u t : State} (h : CutOf s u) (hrun : performAll is s = .next t) :
    ∃ v, Machine.performAll is u = .next v ∧ CutOf t v := by
  induction is generalizing s u with
  | nil => cases hrun; exact ⟨u, rfl, h⟩
  | cons i is ih =>
    obtain ⟨s', hexec, -⟩ := everyInstructionCompletes i s
    obtain ⟨u', hexec', h'⟩ := h.exec hexec
    rw [performAll_cons hexec] at hrun
    rw [performAll_cons hexec']
    exact ih h' hrun

/-- The machine without a capacity right after reset: every legal machine's reset state is its cut. -/
theorem cutOf_resetWith {c : Config} (h : c.legal = true) :
    CutOf (State.resetWith c) (State.resetWith { Config.taken with rsmCap := none }) := by
  obtain ⟨hcap, -⟩ := (config_legal_iff c).mp h
  exact ⟨hcap, rfl, (Rsm.cut_empty _ _).symm, rfl⟩

theorem CutOf.phase {s u : State} (h : CutOf s u) : s.rsm.phase = u.rsm.phase := by
  rw [h.rsm, Rsm.phase_cut (hasRoom_zero_of_legalCap h.legal)]

/-- Settles O58: both machines are cuts of the one without a capacity, which has one run. -/
theorem legalConfigurationsAnswerAlike : Obligations.LegalConfigurationsAnswerAlike := by
  intro c₁ c₂ is h₁ h₂
  obtain ⟨t₁, hrun₁⟩ := performAll_completes is (State.resetWith c₁)
  obtain ⟨t₂, hrun₂⟩ := performAll_completes is (State.resetWith c₂)
  obtain ⟨v, hv, hcut₁⟩ := (cutOf_resetWith h₁).performAll hrun₁
  obtain ⟨w, hw, hcut₂⟩ := (cutOf_resetWith h₂).performAll hrun₂
  obtain rfl : v = w := Host.Outcome.next.inj (hv.symm.trans hw)
  exact ⟨t₁, t₂, hrun₁, hrun₂, hcut₁.outputs.trans hcut₂.outputs.symm, hcut₁.phase.trans hcut₂.phase.symm⟩

end Sys2Proof.Machine
end
